-- ==== Sys2Proof/Word.lean ====
section
/-!
DEFINITION. The value types of the block: bytes, words, offsets, the 32-byte buffers, the cipher
state and the round-key file. Widths are the spec's: 00_scope.md rules R7, R10, R12 and R16,
10_state.md rules R20 and R25.
-/

namespace Sys2Proof

/-- A byte: an 8-bit unsigned value (R12). -/
abbrev Byte := BitVec 8

/-- A word: a 32-bit unsigned value (R12), the width of the host bus and of a command (R11, R55). -/
abbrev Word := BitVec 32

/-- A host register-window offset, 0x00 to 0x7F: seven bits (R42). -/
abbrev Offset := BitVec 7

/-- A 32-byte array with indices 0..31 and no others (R25): `KEY`, `DIN`, `DOUT` and one cipher block. -/
abbrev Block := Vector Byte 32

/-- `STATE`, the cipher state `s[r][c]`, row `r` in 0..3 and column `c` in 0..7 (R16, R37). -/
abbrev StateMatrix := Vector (Vector Byte 8) 4

/-- The round-key file `W[0..119]` (R10, R36). -/
abbrev Schedule := Vector Word 120

end Sys2Proof
end

