-- ==== Sys2Proof/Syntax.lean ====
section
/-!
DEFINITION. The commands of the block: one constructor per row of spec/opcode_table.json
(30_encoding.md rules R55 and R56). The operand is `len`, a natural number (R57).
-/

namespace Sys2Proof

/-- A command. Every command has the one format `CMD` and the one operand `len` (R55, R57). -/
inductive Instr where
  /-- `LOADKEY len`: `len` is the key length in bytes (R121). -/
  | loadkey (len : Nat)
  /-- `ENC len`: `len` is the source length in bytes (R124). -/
  | enc (len : Nat)
  /-- `DEC len`: `len` is the source length in bytes (R128). -/
  | dec (len : Nat)
  deriving DecidableEq, Repr

/-- The operand of a command (R57). -/
def Instr.len : Instr → Nat
  | .loadkey n => n
  | .enc n => n
  | .dec n => n

end Sys2Proof
end

