-- ==== Sys2Proof/WellFormed.lean ====
section
/-!
DEFINITION. Which terms of `Instr` are commands of the block: the operand has an encoding
(30_encoding.md rule R57: "a natural number in 0..255").
-/

namespace Sys2Proof

/-- A command is well formed when its `len` fits the 8-bit `LEN` field (R55, R57). Every such `len` is
a command, the lengths it rejects with an error code among them (R58). -/
def Instr.wf (i : Instr) : Bool := i.len ≤ 255

end Sys2Proof
end

