-- ==== Sys2Proof/Decode.lean ====
section
/-!
DEFINITION. The command decoder and encoder, from the one format of 30_encoding.md rules R55, R56 and
R59. Decoding is total on 32-bit words, and a word that is no command is refused under the name of
the field that makes it illegal (R60).
-/

namespace Sys2Proof

/-- Why a word is `BADCMD` (R59, R60): the first illegal field, reserved fields first. -/
inductive BadCmd where
  /-- `v[31:16]` is not zero. -/
  | rsv1
  /-- `v[7:4]` is not zero. -/
  | rsv0
  /-- `v[3:0]` is 0x0 or in 0x4..0xF. -/
  | opcode
  deriving DecidableEq, Repr

/-- Field `RSV1`, bits 31:16 (R55). -/
def fieldRsv1 (v : Word) : BitVec 16 := v.extractLsb' 16 16

/-- Field `LEN`, bits 15:8 (R55). -/
def fieldLen (v : Word) : BitVec 8 := v.extractLsb' 8 8

/-- Field `RSV0`, bits 7:4 (R55). -/
def fieldRsv0 (v : Word) : BitVec 4 := v.extractLsb' 4 4

/-- Field `OP`, bits 3:0 (R55). -/
def fieldOp (v : Word) : BitVec 4 := v.extractLsb' 0 4

/-- The command an opcode selects, with its operand (R56). -/
def opCommand (op : BitVec 4) (len : Nat) : Option Instr :=
  if op = 0x1#4 then some (.loadkey len)
  else if op = 0x2#4 then some (.enc len)
  else if op = 0x3#4 then some (.dec len)
  else none

/-- `decode(v)` (R59). The operand is neither scaled nor sign-extended (R57). -/
def decode (v : Word) : Except BadCmd Instr :=
  if fieldRsv1 v ≠ 0#16 then .error .rsv1
  else if fieldRsv0 v ≠ 0#4 then .error .rsv0
  else match opCommand (fieldOp v) (fieldLen v).toNat with
    | some i => .ok i
    | none => .error .opcode

/-- The opcode of a command (R56). -/
def Instr.op : Instr → BitVec 4
  | .loadkey _ => 0x1#4
  | .enc _ => 0x2#4
  | .dec _ => 0x3#4

/-- The word of a command: `0000000000000000 LLLLLLLL 0000 OOOO` (R55). -/
def encode (i : Instr) : Word :=
  0#16 ++ (BitVec.ofNat 8 i.len ++ (0#4 ++ i.op))

/-- The command our decoder reads from the low `nbits` bits of `w`, numbered as spec/opcode_table.json
numbers them (bit 0 the least significant bit of the word). A command is exactly one 32-bit word
(R62), so a value that needs more bits is no command. -/
def decodeTableWord (nbits w : Nat) : Option Instr :=
  if w % 2 ^ nbits < 2 ^ 32 then
    match decode (BitVec.ofNat 32 (w % 2 ^ nbits)) with
    | .ok i => some i
    | .error _ => none
  else none

end Sys2Proof
end

