-- ==== Sys2Proof/Config.lean ====
section
/-!
DEFINITION. What is fixed for one block, and the values the spec leaves open. The widths `Nb` and
`Nr` follow 00_scope.md rules R7 and R9. The free values stand for what 10_state.md rules R37 and
R41 call unspecified (93_implementation_defined.md I7 and I8: "any value"). The latencies are the
OPEN parameters of 70_reset_and_hazards.md rule R157.
-/

namespace Sys2Proof

/-- `Nb`, the block width in 32-bit words (R7). -/
def Config.nb : Nat := 8

/-- `Nr = max(Nb, Nk) + 6`, the round count (R9). -/
def Config.nr (nk : Nat) : Nat := max Config.nb nk + 6

/-- The free value `STATE` takes where the spec leaves it unspecified: between commands (R37) and
after a reset event (R41, R151). The argument is `State.freeCount`, so each use may differ. Nothing
in Lean can evaluate it. notes/assumptions/3.md and 4.md. -/
opaque Config.freeMatrix : Nat → StateMatrix

/-- The free value `W` takes after a reset event (R41, R151, R152). The argument is
`State.freeCount`. notes/assumptions/4.md. -/
opaque Config.freeSchedule : Nat → Schedule

/-- What the implementation adds to the least latency of a LOADKEY, by its `len` (R157, R158). -/
opaque Config.loadkeyExtra : Nat → Nat

/-- What the implementation adds to the least latency of an ENC (R157). -/
opaque Config.encExtra : Nat

/-- What the implementation adds to the least latency of a DEC (R157). -/
opaque Config.decExtra : Nat

/-- What the implementation adds to the least latency of a command that ends in an error (R157). -/
opaque Config.errExtra : Nat

/-- `LAT_LOADKEY` in host bus cycles: open, at least 1, and it may depend on `len` (R157, R158). -/
def Config.latLoadkey (len : Nat) : Nat := Config.loadkeyExtra len + 1

/-- `LAT_ENC` in host bus cycles: open, at least 1 (R157). -/
def Config.latEnc : Nat := Config.encExtra + 1

/-- `LAT_DEC` in host bus cycles: open, at least 1 (R157). -/
def Config.latDec : Nat := Config.decExtra + 1

/-- `LAT_ERR` in host bus cycles: open, at least 1 (R157, 92_eei_decisions.md D16). -/
def Config.latErr : Nat := Config.errExtra + 1

end Sys2Proof
end

