-- ==== Sys2Proof/Machine/State.lean ====
section
/-!
DEFINITION. The state of the block and of its host port, as plain data, and the state after reset.
10_state.md rules R20, R24, R37 and R41; 20_memory.md rules R43, R44, R50 and R51;
70_reset_and_hazards.md rules R151 and R152.
-/

namespace Sys2Proof.Machine

/-- What `STATUS.ERR` may report (R136). -/
inductive ErrCode where
  /-- 0: the command succeeded. -/
  | ok
  /-- 1: LOADKEY with a length other than 16, 24 or 32. -/
  | keySize
  /-- 2: ENC with `len > 32`, or DEC with `len` other than 32. -/
  | srcLen
  /-- 3: ENC or DEC while `KV = 0`. -/
  | noKey
  /-- 4: a `CMD` write whose word is no command. -/
  | badCmd
  deriving DecidableEq, Repr

/-- The sequencer (R20, R24): the hidden step index of the command in progress. The step is named by the
command and its index; for LOADKEY also by `Nk`, on which its sequence depends. -/
inductive Sequencer where
  /-- No command is in progress. -/
  | idle
  /-- LOADKEY: the next word to expand is `W[i]` (R92). -/
  | expand (nk i : Nat)
  /-- ENC: `i` of the 56 steps are done (R108). -/
  | encrypt (i : Nat)
  /-- DEC: `i` of the 56 steps are done (R116). -/
  | decrypt (i : Nat)
  deriving DecidableEq, Repr

/-- The direction of a host access, with the data word of a write (R43). -/
inductive Direction where
  | read
  | write (v : Word)
  deriving DecidableEq, Repr

/-- One host access: an offset in 0x00..0x7F, a size in bytes and a direction (R43). Only size 4 is ever
carried out, so a write of another size needs no data of its own width. notes/assumptions/15.md. -/
structure Access where
  off : Offset
  size : Nat
  dir : Direction
  deriving DecidableEq, Repr

/-- The block's answer to one host access (R44, R50). -/
inductive BusResponse where
  /-- The read completed with this data word. -/
  | readData (v : Word)
  /-- The write is acknowledged. -/
  | writeAck
  /-- The bus-error response of a read, with the data word that comes along with it. -/
  | readError (v : Word)
  /-- The bus-error response of a write. -/
  | writeError
  deriving DecidableEq, Repr

/-- What reaches the block from outside: host accesses (R19) and the platform's reset (R151, R152). -/
inductive PortEvent where
  /-- The port delivers one host access. -/
  | access (a : Access)
  /-- The platform asserts reset between commands (R151). -/
  | reset
  /-- The platform asserts reset while the command of a write of `v` to `CMD` is in progress, after the
  sequencer has done `k` of its steps (R152). -/
  | resetDuring (v : Word) (k : Nat)
  deriving DecidableEq, Repr

/-- The state: first what R20 lists, then the model's own fields for the port and for free values. The
ROMs are definitions, not state (R21). `CMD` stores nothing (R29). -/
@[ext]
structure State where
  /-- `KEY[0..31]` (R26). -/
  key : Block
  /-- `DIN[0..31]` (R27). -/
  din : Block
  /-- `DOUT[0..31]` (R28). -/
  dout : Block
  /-- `STATUS.KV` (R31). -/
  kv : Bool
  /-- `STATUS.ERR`, four bits (R32). -/
  err : BitVec 4
  /-- `STATUS.NK`, four bits (R33). -/
  nk : BitVec 4
  /-- `W[0..119]` (R36). -/
  w : Schedule
  /-- `STATE`, `s[0..3][0..7]` (R37). -/
  matrix : StateMatrix
  /-- The sequencer (R24). -/
  seq : Sequencer
  /-- The model's own: what the port still has to deliver, in delivery order (R50, R51).
  notes/assumptions/6.md. -/
  port : List PortEvent
  /-- The model's own: the responses given so far, oldest first. notes/assumptions/7.md. -/
  responses : List BusResponse
  /-- The model's own: how many free values have been taken. notes/assumptions/5.md. -/
  freeCount : Nat
  deriving DecidableEq, Repr

/-- Why the machine stops with a fault. Nothing in the spec stops the block: a bad command reports a code
and completes (R137), and a bus error is the response to one access and leaves the block as it was
(R44, R138). So there is no reason, and no step faults. notes/assumptions/8.md. -/
inductive Fault where
  deriving DecidableEq, Repr

/-- Why the model has no meaning for an instruction. -/
inductive Refusal where
  /-- Raised by the dispatch for an instruction whose meaning is not written; safe. No arm does. -/
  | notModelled (mnemonic : String)
  deriving DecidableEq, Repr

/-- What one step or one command answers. -/
abbrev Result := Host.Outcome State Fault Refusal

/-- The state after reset (R41, R151). `W` and `STATE` are unspecified there; the model names zero for
both (DESIGN CHOICE, notes/assumptions/1.md and 2.md). -/
def State.reset : State where
  key := Vector.replicate 32 0#8
  din := Vector.replicate 32 0#8
  dout := Vector.replicate 32 0#8
  kv := false
  err := 0#4
  nk := 0#4
  w := Vector.replicate 120 0#32
  matrix := Vector.replicate 4 (Vector.replicate 8 0#8)
  seq := .idle
  port := []
  responses := []
  freeCount := 0

end Sys2Proof.Machine
end

