-- ==== Sys2Proof/Machine/Flags.lean ====
section
/-!
DEFINITION. The three flags `KV`, `ERR` and `NK`: the error codes, every way an event writes the flags
(10_state.md rules R31 to R34), and the `STATUS` word a read returns (R30).
-/

namespace Sys2Proof.Machine

/-- The 4-bit code of an error (R136). -/
def ErrCode.bits : ErrCode → BitVec 4
  | .ok => 0#4
  | .keySize => 1#4
  | .srcLen => 2#4
  | .noKey => 3#4
  | .badCmd => 4#4

/-- `STATUS.ERR <- code` (R32): every command does this once, as its last effect (R120). -/
def setErr (c : ErrCode) (s : State) : State := { s with err := c.bits }

/-- `KV <- 1` and `NK <- Nk`: the flags of a successful LOADKEY (R31, R33). -/
def setKeyLoaded (nk : Nat) (s : State) : State := { s with kv := true, nk := BitVec.ofNat 4 nk }

/-- `KV <- 0` and `NK <- 0`: the flags of a failed LOADKEY (R31, R33). -/
def clearKeyLoaded (s : State) : State := { s with kv := false, nk := 0#4 }

/-- The word a read of `STATUS` returns: `zext_32({NK, ERR, 0b000, KV})` (R30). -/
def statusWord (s : State) : Word :=
  0#20 ++ (s.nk ++ (s.err ++ (0#3 ++ BitVec.ofBool s.kv)))

end Sys2Proof.Machine
end

