-- ==== Sys2Proof/Machine/Ops.lean ====
section
/-!
DEFINITION. The shared operations: bytes in words and in buffers (00_scope.md rules R14 and R15,
20_memory.md rule R47), the error report that is the block's only trap-like event (60_exceptions.md
rules R137 and R141), reset (10_state.md rule R41), and the answer on the port.
-/

namespace Sys2Proof.Machine

/-- `word(a0,a1,a2,a3) = {a0,a1,a2,a3}`: byte 0 is the most significant (R15). -/
def wordOfBytes (a0 a1 a2 a3 : Byte) : Word := a0 ++ (a1 ++ (a2 ++ a3))

/-- Byte `j` of the tuple of a word: `w[31-8j : 24-8j]` (R15). -/
def byteOfWord (w : Word) (j : Fin 4) : Byte := w.extractLsb' (24 - 8 * j.val) 8

/-- `word_j(B) = {B[4j], B[4j+1], B[4j+2], B[4j+3]}` (R47). -/
def bufWord (b : Block) (j : Fin 8) : Word :=
  wordOfBytes b[4 * j.val] b[4 * j.val + 1] b[4 * j.val + 2] b[4 * j.val + 3]

/-- The buffer after a write of `v` to its word `j`: four bytes change, and no other (R45, R47). -/
@[irreducible] def setBufWord (b : Block) (j : Fin 8) (v : Word) : Block :=
  Vector.ofFn fun i : Fin 32 =>
    if i.val / 4 = j.val then byteOfWord v ⟨i.val % 4, Nat.mod_lt _ (by decide)⟩ else b[i.val]

/-- The first `len` bytes of a buffer, zero-extended to 32 (R125). The extension is not written back. -/
@[irreducible] def zeroExtend (len : Nat) (b : Block) : Block :=
  Vector.ofFn fun i : Fin 32 => if i.val < len then b[i.val] else 0#8

/-- `raise Error(code)` (R17, R137): `ERR` takes the code and nothing else changes. It saves nothing,
changes no mode and redirects no control (R141), and there is no return from it (R142). -/
def raiseError (c : ErrCode) (s : State) : State := setErr c s

/-- The state reset leaves (R41, R151), in a run: the buffers and flags are zero and the sequencer is idle.
`W` and `STATE` are unspecified, so they are free values (notes/assumptions/4.md). What the host has
still to deliver and what it was answered are not the block's (notes/assumptions/10.md). -/
def resetBlock (s : State) : State :=
  { s with
    key := Vector.replicate 32 0#8
    din := Vector.replicate 32 0#8
    dout := Vector.replicate 32 0#8
    kv := false
    err := ErrCode.ok.bits
    nk := 0#4
    w := Config.freeSchedule s.freeCount
    matrix := Config.freeMatrix s.freeCount
    seq := .idle
    freeCount := s.freeCount + 1 }

/-- The port gives one response. Nothing of the block changes. -/
def respond (r : BusResponse) (s : State) : State := { s with responses := s.responses ++ [r] }

/-- The bus-error response (R44): no state of the block changes, `STATUS` included (R138), a read returns
the data word 0x00000000 along with it, and a write is discarded. -/
def busError (d : Direction) (s : State) : State :=
  match d with
  | .read => respond (.readError 0x00000000#32) s
  | .write _ => respond .writeError s

/-- The write that ran a command is acknowledged when the command has made its state changes (R50, R137). -/
def acknowledge : Result → Result
  | .next s => .next (respond .writeAck s)
  | .fault r => .fault r
  | .refused r => .refused r

end Sys2Proof.Machine
end

