-- ==== Sys2Proof/Machine/Gf.lean ====
section
/-!
DEFINITION. Arithmetic in GF(2^8) modulo 0x11B: 40_gf_arith.md rules R67 to R72. Addition is `^^^`.
-/

namespace Sys2Proof.Machine

/-- `xtime(b)`: multiplication by 2, reduced when the top bit overflows (R68). -/
def xtime (b : Byte) : Byte :=
  let t : BitVec 9 := b.zeroExtend 9 <<< 1
  (if t.getLsbD 8 then t ^^^ 0x11B#9 else t).extractLsb' 0 8

/-- The loop of `gmul`, bits `i`, `i+1`, … of `b`, `n` of them: `a` is the multiplicand so far and `p`
the product so far (R69). -/
def gmulLoop (b : Byte) : (n i : Nat) → (a p : Byte) → Byte
  | 0, _, _, p => p
  | n + 1, i, a, p => gmulLoop b n (i + 1) (xtime a) (if b.getLsbD i then p ^^^ a else p)

/-- `gmul(a, b)`, written `a • b` (R69): one pass over bits 0 to 7 of `b`. -/
def gmul (a b : Byte) : Byte := gmulLoop b 8 0 a 0x00#8

/-- All 256 bytes, in order. -/
def allBytes : List Byte := (List.range 256).map (BitVec.ofNat 8)

/-- `ginv(x)`, the multiplicative inverse, with 0 mapping to 0 (R72): the `y` with `gmul(x, y) = 1`. -/
def ginv (x : Byte) : Byte :=
  if x = 0x00#8 then 0x00#8
  else (allBytes.find? fun y => gmul x y = 0x01#8).getD 0x00#8

end Sys2Proof.Machine
end

