-- ==== Sys2Proof/Machine/Sbox.lean ====
section
/-!
DEFINITION. The substitution ROMs (41_sbox.md): the affine transform (R75, R76), the tables as the
spec prints them (R78, R80) and their look-ups (R77, R79). The contents are constants, not state (R21).
-/

namespace Sys2Proof.Machine

/-- `rotl8(b, n)`: bit 7 moves to bit `n-1` (R75). -/
def rotl8 (b : Byte) (n : Nat) : Byte := b.rotateLeft n

/-- The affine transform of the S-box (R76). -/
def affine (b : Byte) : Byte :=
  0x63#8 ^^^ b ^^^ rotl8 b 1 ^^^ rotl8 b 2 ^^^ rotl8 b 3 ^^^ rotl8 b 4

/-- A 256-byte ROM, laid out as the spec prints it: 16 rows of 16 bytes. -/
abbrev Rom := Vector (Vector Byte 16) 16

/-- The ROM's byte at an index: row the high nibble, column the low nibble (R78, R80). -/
def romAt (rom : Rom) (x : Byte) : Byte :=
  (rom[x.toNat / 16]'(by have := x.isLt; omega))[x.toNat % 16]'(Nat.mod_lt _ (by decide))

/-- Row 0x of `SBOX` (R78). -/
def sboxRow0 : Vector Byte 16 :=
  #v[0x63, 0x7C, 0x77, 0x7B, 0xF2, 0x6B, 0x6F, 0xC5,
    0x30, 0x01, 0x67, 0x2B, 0xFE, 0xD7, 0xAB, 0x76]

/-- Row 1x of `SBOX` (R78). -/
def sboxRow1 : Vector Byte 16 :=
  #v[0xCA, 0x82, 0xC9, 0x7D, 0xFA, 0x59, 0x47, 0xF0,
    0xAD, 0xD4, 0xA2, 0xAF, 0x9C, 0xA4, 0x72, 0xC0]

/-- Row 2x of `SBOX` (R78). -/
def sboxRow2 : Vector Byte 16 :=
  #v[0xB7, 0xFD, 0x93, 0x26, 0x36, 0x3F, 0xF7, 0xCC,
    0x34, 0xA5, 0xE5, 0xF1, 0x71, 0xD8, 0x31, 0x15]

/-- Row 3x of `SBOX` (R78). -/
def sboxRow3 : Vector Byte 16 :=
  #v[0x04, 0xC7, 0x23, 0xC3, 0x18, 0x96, 0x05, 0x9A,
    0x07, 0x12, 0x80, 0xE2, 0xEB, 0x27, 0xB2, 0x75]

/-- Row 4x of `SBOX` (R78). -/
def sboxRow4 : Vector Byte 16 :=
  #v[0x09, 0x83, 0x2C, 0x1A, 0x1B, 0x6E, 0x5A, 0xA0,
    0x52, 0x3B, 0xD6, 0xB3, 0x29, 0xE3, 0x2F, 0x84]

/-- Row 5x of `SBOX` (R78). -/
def sboxRow5 : Vector Byte 16 :=
  #v[0x53, 0xD1, 0x00, 0xED, 0x20, 0xFC, 0xB1, 0x5B,
    0x6A, 0xCB, 0xBE, 0x39, 0x4A, 0x4C, 0x58, 0xCF]

/-- Row 6x of `SBOX` (R78). -/
def sboxRow6 : Vector Byte 16 :=
  #v[0xD0, 0xEF, 0xAA, 0xFB, 0x43, 0x4D, 0x33, 0x85,
    0x45, 0xF9, 0x02, 0x7F, 0x50, 0x3C, 0x9F, 0xA8]

/-- Row 7x of `SBOX` (R78). -/
def sboxRow7 : Vector Byte 16 :=
  #v[0x51, 0xA3, 0x40, 0x8F, 0x92, 0x9D, 0x38, 0xF5,
    0xBC, 0xB6, 0xDA, 0x21, 0x10, 0xFF, 0xF3, 0xD2]

/-- Row 8x of `SBOX` (R78). -/
def sboxRow8 : Vector Byte 16 :=
  #v[0xCD, 0x0C, 0x13, 0xEC, 0x5F, 0x97, 0x44, 0x17,
    0xC4, 0xA7, 0x7E, 0x3D, 0x64, 0x5D, 0x19, 0x73]

/-- Row 9x of `SBOX` (R78). -/
def sboxRow9 : Vector Byte 16 :=
  #v[0x60, 0x81, 0x4F, 0xDC, 0x22, 0x2A, 0x90, 0x88,
    0x46, 0xEE, 0xB8, 0x14, 0xDE, 0x5E, 0x0B, 0xDB]

/-- Row Ax of `SBOX` (R78). -/
def sboxRowA : Vector Byte 16 :=
  #v[0xE0, 0x32, 0x3A, 0x0A, 0x49, 0x06, 0x24, 0x5C,
    0xC2, 0xD3, 0xAC, 0x62, 0x91, 0x95, 0xE4, 0x79]

/-- Row Bx of `SBOX` (R78). -/
def sboxRowB : Vector Byte 16 :=
  #v[0xE7, 0xC8, 0x37, 0x6D, 0x8D, 0xD5, 0x4E, 0xA9,
    0x6C, 0x56, 0xF4, 0xEA, 0x65, 0x7A, 0xAE, 0x08]

/-- Row Cx of `SBOX` (R78). -/
def sboxRowC : Vector Byte 16 :=
  #v[0xBA, 0x78, 0x25, 0x2E, 0x1C, 0xA6, 0xB4, 0xC6,
    0xE8, 0xDD, 0x74, 0x1F, 0x4B, 0xBD, 0x8B, 0x8A]

/-- Row Dx of `SBOX` (R78). -/
def sboxRowD : Vector Byte 16 :=
  #v[0x70, 0x3E, 0xB5, 0x66, 0x48, 0x03, 0xF6, 0x0E,
    0x61, 0x35, 0x57, 0xB9, 0x86, 0xC1, 0x1D, 0x9E]

/-- Row Ex of `SBOX` (R78). -/
def sboxRowE : Vector Byte 16 :=
  #v[0xE1, 0xF8, 0x98, 0x11, 0x69, 0xD9, 0x8E, 0x94,
    0x9B, 0x1E, 0x87, 0xE9, 0xCE, 0x55, 0x28, 0xDF]

/-- Row Fx of `SBOX` (R78). -/
def sboxRowF : Vector Byte 16 :=
  #v[0x8C, 0xA1, 0x89, 0x0D, 0xBF, 0xE6, 0x42, 0x68,
    0x41, 0x99, 0x2D, 0x0F, 0xB0, 0x54, 0xBB, 0x16]

/-- The ROM `SBOX` (R78). -/
def sboxRom : Rom :=
  #v[sboxRow0, sboxRow1, sboxRow2, sboxRow3, sboxRow4, sboxRow5, sboxRow6, sboxRow7,
    sboxRow8, sboxRow9, sboxRowA, sboxRowB, sboxRowC, sboxRowD, sboxRowE, sboxRowF]

/-- Row 0x of `INVSBOX` (R80). -/
def invSboxRow0 : Vector Byte 16 :=
  #v[0x52, 0x09, 0x6A, 0xD5, 0x30, 0x36, 0xA5, 0x38,
    0xBF, 0x40, 0xA3, 0x9E, 0x81, 0xF3, 0xD7, 0xFB]

/-- Row 1x of `INVSBOX` (R80). -/
def invSboxRow1 : Vector Byte 16 :=
  #v[0x7C, 0xE3, 0x39, 0x82, 0x9B, 0x2F, 0xFF, 0x87,
    0x34, 0x8E, 0x43, 0x44, 0xC4, 0xDE, 0xE9, 0xCB]

/-- Row 2x of `INVSBOX` (R80). -/
def invSboxRow2 : Vector Byte 16 :=
  #v[0x54, 0x7B, 0x94, 0x32, 0xA6, 0xC2, 0x23, 0x3D,
    0xEE, 0x4C, 0x95, 0x0B, 0x42, 0xFA, 0xC3, 0x4E]

/-- Row 3x of `INVSBOX` (R80). -/
def invSboxRow3 : Vector Byte 16 :=
  #v[0x08, 0x2E, 0xA1, 0x66, 0x28, 0xD9, 0x24, 0xB2,
    0x76, 0x5B, 0xA2, 0x49, 0x6D, 0x8B, 0xD1, 0x25]

/-- Row 4x of `INVSBOX` (R80). -/
def invSboxRow4 : Vector Byte 16 :=
  #v[0x72, 0xF8, 0xF6, 0x64, 0x86, 0x68, 0x98, 0x16,
    0xD4, 0xA4, 0x5C, 0xCC, 0x5D, 0x65, 0xB6, 0x92]

/-- Row 5x of `INVSBOX` (R80). -/
def invSboxRow5 : Vector Byte 16 :=
  #v[0x6C, 0x70, 0x48, 0x50, 0xFD, 0xED, 0xB9, 0xDA,
    0x5E, 0x15, 0x46, 0x57, 0xA7, 0x8D, 0x9D, 0x84]

/-- Row 6x of `INVSBOX` (R80). -/
def invSboxRow6 : Vector Byte 16 :=
  #v[0x90, 0xD8, 0xAB, 0x00, 0x8C, 0xBC, 0xD3, 0x0A,
    0xF7, 0xE4, 0x58, 0x05, 0xB8, 0xB3, 0x45, 0x06]

/-- Row 7x of `INVSBOX` (R80). -/
def invSboxRow7 : Vector Byte 16 :=
  #v[0xD0, 0x2C, 0x1E, 0x8F, 0xCA, 0x3F, 0x0F, 0x02,
    0xC1, 0xAF, 0xBD, 0x03, 0x01, 0x13, 0x8A, 0x6B]

/-- Row 8x of `INVSBOX` (R80). -/
def invSboxRow8 : Vector Byte 16 :=
  #v[0x3A, 0x91, 0x11, 0x41, 0x4F, 0x67, 0xDC, 0xEA,
    0x97, 0xF2, 0xCF, 0xCE, 0xF0, 0xB4, 0xE6, 0x73]

/-- Row 9x of `INVSBOX` (R80). -/
def invSboxRow9 : Vector Byte 16 :=
  #v[0x96, 0xAC, 0x74, 0x22, 0xE7, 0xAD, 0x35, 0x85,
    0xE2, 0xF9, 0x37, 0xE8, 0x1C, 0x75, 0xDF, 0x6E]

/-- Row Ax of `INVSBOX` (R80). -/
def invSboxRowA : Vector Byte 16 :=
  #v[0x47, 0xF1, 0x1A, 0x71, 0x1D, 0x29, 0xC5, 0x89,
    0x6F, 0xB7, 0x62, 0x0E, 0xAA, 0x18, 0xBE, 0x1B]

/-- Row Bx of `INVSBOX` (R80). -/
def invSboxRowB : Vector Byte 16 :=
  #v[0xFC, 0x56, 0x3E, 0x4B, 0xC6, 0xD2, 0x79, 0x20,
    0x9A, 0xDB, 0xC0, 0xFE, 0x78, 0xCD, 0x5A, 0xF4]

/-- Row Cx of `INVSBOX` (R80). -/
def invSboxRowC : Vector Byte 16 :=
  #v[0x1F, 0xDD, 0xA8, 0x33, 0x88, 0x07, 0xC7, 0x31,
    0xB1, 0x12, 0x10, 0x59, 0x27, 0x80, 0xEC, 0x5F]

/-- Row Dx of `INVSBOX` (R80). -/
def invSboxRowD : Vector Byte 16 :=
  #v[0x60, 0x51, 0x7F, 0xA9, 0x19, 0xB5, 0x4A, 0x0D,
    0x2D, 0xE5, 0x7A, 0x9F, 0x93, 0xC9, 0x9C, 0xEF]

/-- Row Ex of `INVSBOX` (R80). -/
def invSboxRowE : Vector Byte 16 :=
  #v[0xA0, 0xE0, 0x3B, 0x4D, 0xAE, 0x2A, 0xF5, 0xB0,
    0xC8, 0xEB, 0xBB, 0x3C, 0x83, 0x53, 0x99, 0x61]

/-- Row Fx of `INVSBOX` (R80). -/
def invSboxRowF : Vector Byte 16 :=
  #v[0x17, 0x2B, 0x04, 0x7E, 0xBA, 0x77, 0xD6, 0x26,
    0xE1, 0x69, 0x14, 0x63, 0x55, 0x21, 0x0C, 0x7D]

/-- The ROM `INVSBOX` (R80). -/
def invSboxRom : Rom :=
  #v[invSboxRow0, invSboxRow1, invSboxRow2, invSboxRow3, invSboxRow4, invSboxRow5, invSboxRow6, invSboxRow7,
    invSboxRow8, invSboxRow9, invSboxRowA, invSboxRowB, invSboxRowC, invSboxRowD, invSboxRowE, invSboxRowF]

/-- `SBOX[x]`, the forward substitution (R77). -/
def sbox (x : Byte) : Byte := romAt sboxRom x

/-- `INVSBOX[y]`, the inverse substitution (R79). -/
def invSbox (y : Byte) : Byte := romAt invSboxRom y

end Sys2Proof.Machine
end

