-- ==== Sys2Proof/Machine/KeySchedule.lean ====
section
/-!
DEFINITION. The key schedule expander (42_key_schedule.md): the word operations (R87, R88), the round
constants (R89 to R91), one step of the recurrence and the whole expansion (R92), and the round-key
view (R95). The second branch is "`i mod Nk = 4`" for every `Nk` (90_conflicts.md C1).
-/

namespace Sys2Proof.Machine

/-- `RotWord(w) = rotl32(w, 8)`: one byte to the left (R87). -/
def rotWord (w : Word) : Word := w.rotateLeft 8

/-- `SubWord(w)`: the forward S-box on each byte (R88). -/
def subWord (w : Word) : Word :=
  wordOfBytes (sbox (byteOfWord w 0)) (sbox (byteOfWord w 1)) (sbox (byteOfWord w 2)) (sbox (byteOfWord w 3))

/-- `rc_1 .. rc_10`: the first table row of R91. -/
def rconRow1 : List Byte := [0x01, 0x02, 0x04, 0x08, 0x10, 0x20, 0x40, 0x80, 0x1B, 0x36]

/-- `rc_11 .. rc_20`: the second table row of R91. -/
def rconRow2 : List Byte := [0x6C, 0xD8, 0xAB, 0x4D, 0x9A, 0x2F, 0x5E, 0xBC, 0x63, 0xC6]

/-- `rc_21 .. rc_29`: the third table row of R91. -/
def rconRow3 : List Byte := [0x97, 0x35, 0x6A, 0xD4, 0xB3, 0x7D, 0xFA, 0xEF, 0xC5]

/-- The ROM `RCON`, row after row: `rc_j` at place `j - 1` (R90, R91). -/
def rconRom : List Byte := rconRow1 ++ rconRow2 ++ rconRow3

/-- The round-constant byte `rc_j`, `j` in 1..29; no other index is ever read (R90). -/
def rc (j : Nat) : Byte := rconRom.getD (j - 1) 0x00#8

/-- The round-constant word `Rcon[j] = {rc_j, 0x00, 0x00, 0x00}` (R89). -/
def rcon (j : Nat) : Word := wordOfBytes (rc j) 0x00#8 0x00#8 0x00#8

/-- What the recurrence XORs into `W[i-Nk]`, from `W[i-1]` (R92; 90_conflicts.md C1). -/
def scheduleTemp (nk i : Nat) (prev : Word) : Word :=
  if i % nk = 0 then subWord (rotWord prev) ^^^ rcon (i / nk)
  else if i % nk = 4 then subWord prev
  else prev

/-- The first `Nk` words are the key, packed big-endian; the later words are left as they are (R86). -/
def loadKeyWords (nk : Nat) (key : Block) (w : Schedule) : Schedule :=
  Vector.ofFn fun i : Fin 120 => if h : i.val < nk ∧ i.val < 8 then bufWord key ⟨i.val, h.2⟩ else w[i.val]

/-- One step of the recurrence: `W[i] <- W[i-Nk] XOR temp`, for `i` in `Nk..119` (R92). -/
def expandWord (nk i : Nat) (w : Schedule) : Schedule :=
  if h : 0 < i ∧ i < 120 then
    w.set i (w[i - nk]'(by omega) ^^^ scheduleTemp nk i (w[i - 1]'(by omega))) h.2
  else w

/-- `n` steps of the recurrence, from word `i` on (R92). -/
def expandFrom (nk : Nat) : (n i : Nat) → Schedule → Schedule
  | 0, _, w => w
  | n + 1, i, w => expandFrom nk n (i + 1) (expandWord nk i w)

/-- `Expand(Nk, K)` as a function of `Nk` and the key alone (R92, R94): word `i` from `Nk` to 119. -/
@[irreducible] def expandKey (nk : Nat) (key : Block) : Schedule :=
  expandFrom nk (120 - nk) nk (loadKeyWords nk key (Vector.replicate 120 0#32))

end Sys2Proof.Machine
end

