-- ==== Sys2Proof/Machine/Round.lean ====
section
/-!
DEFINITION. The forward rounds (43_round_forward.md): block and state (R100), the four primitive steps
(R101 to R105), the rounds (R106, R107) and `Cipher` (R108). Every step reads the state before it.
-/

namespace Sys2Proof.Machine

/-- The matrix with entry `f r c` in row `r`, column `c`. -/
def matrixOf (f : Fin 4 → Fin 8 → Byte) : StateMatrix :=
  Vector.ofFn fun r : Fin 4 => Vector.ofFn fun c : Fin 8 => f r c

/-- `load(blk)`: byte `i` goes to row `i mod 4`, column `i div 4` (R100). -/
def load (b : Block) : StateMatrix := matrixOf fun r c => b[4 * c.val + r.val]

/-- `store(s)`: byte `i` comes from row `i mod 4`, column `i div 4` (R100). -/
def store (m : StateMatrix) : Block :=
  Vector.ofFn fun i : Fin 32 => (m[i.val % 4])[i.val / 4]

/-- `SubBytes` (R101). -/
def subBytes (m : StateMatrix) : StateMatrix := matrixOf fun r c => sbox m[r][c]

/-- `shift(r)`: the row offsets 0, 1, 3, 4 (R102). -/
def shiftOf (r : Fin 4) : Fin 8 := #v[0, 1, 3, 4][r]

/-- `ShiftRows`: column `c` takes `old[(c + shift(r)) mod 8]` (R103). Addition in `Fin 8` is modulo 8. -/
def shiftRows (m : StateMatrix) : StateMatrix := matrixOf fun r c => m[r][c + shiftOf r]

/-- `MixColumns`: each column times `2,3,1,1; 1,2,3,1; 1,1,2,3; 3,1,1,2` (R104). -/
def mixColumns (m : StateMatrix) : StateMatrix :=
  matrixOf fun r c =>
    let a0 := m[0][c]; let a1 := m[1][c]; let a2 := m[2][c]; let a3 := m[3][c]
    match r with
    | 0 => gmul 0x02 a0 ^^^ gmul 0x03 a1 ^^^ a2 ^^^ a3
    | 1 => a0 ^^^ gmul 0x02 a1 ^^^ gmul 0x03 a2 ^^^ a3
    | 2 => a0 ^^^ a1 ^^^ gmul 0x02 a2 ^^^ gmul 0x03 a3
    | 3 => gmul 0x03 a0 ^^^ a1 ^^^ a2 ^^^ gmul 0x02 a3

/-- `RK[r]`, round key `r` in 0..14, as a state-shaped matrix: `RK[r][j][c] = W[8r+c][31-8j : 24-8j]` (R95). -/
def roundKey (w : Schedule) (r : Fin 15) : StateMatrix :=
  matrixOf fun j c => byteOfWord w[8 * r.val + c.val] j

/-- `AddRoundKey(r)` (R105). -/
def addRoundKey (w : Schedule) (r : Fin 15) (m : StateMatrix) : StateMatrix :=
  matrixOf fun j c => m[j][c] ^^^ (roundKey w r)[j][c]

/-- `Round(r)`: `SubBytes; ShiftRows; MixColumns; AddRoundKey(r)` (R106). -/
def fullRound (w : Schedule) (r : Fin 15) (m : StateMatrix) : StateMatrix :=
  addRoundKey w r (mixColumns (shiftRows (subBytes m)))

/-- The final round: `SubBytes; ShiftRows; AddRoundKey(14)`, no `MixColumns` (R107). -/
def finalRound (w : Schedule) (m : StateMatrix) : StateMatrix :=
  addRoundKey w 14 (shiftRows (subBytes m))

/-- The rounds 1 to 13, in order (R106, R108). -/
def middleRounds : List (Fin 15) := [1, 2, 3, 4, 5, 6, 7, 8, 9, 10, 11, 12, 13]

/-- `Cipher(blk, W)` (R108). -/
@[irreducible] def cipher (b : Block) (w : Schedule) : Block :=
  store (finalRound w (middleRounds.foldl (fun m r => fullRound w r m) (addRoundKey w 0 (load b))))

end Sys2Proof.Machine
end

