-- ==== Sys2Proof/Machine/InvRound.lean ====
section
/-!
DEFINITION. The inverse rounds (44_round_inverse.md): the three inverse steps (R111 to R114) and
`InvCipher` (R116), in the order R117 makes normative. The matrix entries are the decimal reading, 0x0E,
0x0B, 0x0D and 0x09 (R113; 90_conflicts.md C2).
-/

namespace Sys2Proof.Machine

/-- `InvSubBytes` (R111). -/
def invSubBytes (m : StateMatrix) : StateMatrix := matrixOf fun r c => invSbox m[r][c]

/-- `InvShiftRows`: column `c` takes `old[(c - shift(r)) mod 8]` (R112). Subtraction in `Fin 8` is modulo 8. -/
def invShiftRows (m : StateMatrix) : StateMatrix := matrixOf fun r c => m[r][c - shiftOf r]

/-- `InvMixColumns`: each column times the matrix of R113 (R114). -/
def invMixColumns (m : StateMatrix) : StateMatrix :=
  matrixOf fun r c =>
    let a0 := m[0][c]; let a1 := m[1][c]; let a2 := m[2][c]; let a3 := m[3][c]
    match r with
    | 0 => gmul 0x0E a0 ^^^ gmul 0x0B a1 ^^^ gmul 0x0D a2 ^^^ gmul 0x09 a3
    | 1 => gmul 0x09 a0 ^^^ gmul 0x0E a1 ^^^ gmul 0x0B a2 ^^^ gmul 0x0D a3
    | 2 => gmul 0x0D a0 ^^^ gmul 0x09 a1 ^^^ gmul 0x0E a2 ^^^ gmul 0x0B a3
    | 3 => gmul 0x0B a0 ^^^ gmul 0x0D a1 ^^^ gmul 0x09 a2 ^^^ gmul 0x0E a3

/-- One middle round of decryption: `AddRoundKey(r); InvMixColumns; InvShiftRows; InvSubBytes` (R116, R117). -/
def invRound (w : Schedule) (r : Fin 15) (m : StateMatrix) : StateMatrix :=
  invSubBytes (invShiftRows (invMixColumns (addRoundKey w r m)))

/-- The first steps of decryption: `AddRoundKey(14); InvShiftRows; InvSubBytes` (R116). -/
def invFirstRound (w : Schedule) (m : StateMatrix) : StateMatrix :=
  invSubBytes (invShiftRows (addRoundKey w 14 m))

/-- `InvCipher(blk, W)`: the middle rounds run from 13 down to 1 (R116). -/
@[irreducible] def invCipher (b : Block) (w : Schedule) : Block :=
  store (addRoundKey w 0 (middleRounds.reverse.foldl (fun m r => invRound w r m) (invFirstRound w (load b))))

end Sys2Proof.Machine
end

