-- ==== Sys2Proof/Machine/Operands.lean ====
section
/-!
DEFINITION. Operand forms: the host window's registers and how an offset names one (20_memory.md rules
R42 and R43), reading and writing a register over the bus (R45, R47), and the lengths each command
accepts (30_encoding.md rule R58).
-/

namespace Sys2Proof.Machine

/-- A register of the host window (R42). -/
inductive Reg where
  | cmd
  | status
  | keyW (j : Fin 8)
  | dinW (j : Fin 8)
  | doutW (j : Fin 8)
  deriving DecidableEq, Repr

/-- The register at an offset: none where the offset is not a multiple of 4, or is in the reserved range
0x08..0x1C (R42, R43). -/
def regAt (off : Offset) : Option Reg :=
  let n := off.toNat
  if n % 4 ≠ 0 then none
  else if n = 0x00 then some .cmd
  else if n = 0x04 then some .status
  else if n < 0x20 then none
  else if n < 0x40 then some (.keyW (Fin.ofNat 8 ((n - 0x20) / 4)))
  else if n < 0x60 then some (.dinW (Fin.ofNat 8 ((n - 0x40) / 4)))
  else some (.doutW (Fin.ofNat 8 ((n - 0x60) / 4)))

/-- The registers the host may read: `STATUS`, `DIN` and `DOUT` (R42). -/
def Reg.readable : Reg → Bool
  | .cmd => false
  | .status => true
  | .keyW _ => false
  | .dinW _ => true
  | .doutW _ => true

/-- The registers the host may write: `CMD`, `KEY` and `DIN` (R42). -/
def Reg.writable : Reg → Bool
  | .cmd => true
  | .status => false
  | .keyW _ => true
  | .dinW _ => true
  | .doutW _ => false

/-- Whether a direction is allowed at a register (R42). -/
def Reg.allows (r : Reg) : Direction → Bool
  | .read => r.readable
  | .write _ => r.writable

/-- The register an access reaches, where the block carries the access out: size 4, an aligned offset, and
an offset and direction the window allows (R43). Otherwise the access is a bus error (R44). -/
def accessReg (a : Access) : Option Reg :=
  if a.size = 4 then (regAt a.off).filter fun r => r.allows a.dir else none

/-- The word a read of a readable register returns (R30, R47). No read is carried out of the other two. -/
def readReg (s : State) : Reg → Option Word
  | .status => some (statusWord s)
  | .dinW j => some (bufWord s.din j)
  | .doutW j => some (bufWord s.dout j)
  | .cmd => none
  | .keyW _ => none

/-- A write of `v` to a word of `KEY` (R26, R47). -/
def writeKeyWord (j : Fin 8) (v : Word) (s : State) : State := { s with key := setBufWord s.key j v }

/-- A write of `v` to a word of `DIN` (R27, R47). -/
def writeDinWord (j : Fin 8) (v : Word) (s : State) : State := { s with din := setBufWord s.din j v }

/-- LOADKEY accepts 16, 24 and 32 (R58). -/
def keyLenOk (len : Nat) : Bool := len = 16 || len = 24 || len = 32

/-- ENC accepts 0..32 (R58). -/
def encLenOk (len : Nat) : Bool := len ≤ 32

/-- DEC accepts 32 (R58). -/
def decLenOk (len : Nat) : Bool := len = 32

end Sys2Proof.Machine
end

