-- ==== Sys2Proof/Machine/Sequencer.lean ====
section
/-!
DEFINITION. The sequencer (10_state.md rule R24): the fixed list of datapath steps of each command and
one tick, which does the step the index names and moves on. Which step runs depends only on the command
and, for LOADKEY, on `Nk`.
-/

namespace Sys2Proof.Machine

/-- A datapath step of ENC or DEC (R24, R108, R116). -/
inductive DatapathStep where
  | addRoundKey (r : Fin 15)
  | subBytes
  | shiftRows
  | mixColumns
  | invSubBytes
  | invShiftRows
  | invMixColumns
  deriving DecidableEq, Repr

/-- What a datapath step does to `STATE`, reading `W` (R101 to R105, R111 to R114). -/
def DatapathStep.run (w : Schedule) : DatapathStep → StateMatrix → StateMatrix
  | .addRoundKey r, m => Machine.addRoundKey w r m
  | .subBytes, m => Machine.subBytes m
  | .shiftRows, m => Machine.shiftRows m
  | .mixColumns, m => Machine.mixColumns m
  | .invSubBytes, m => Machine.invSubBytes m
  | .invShiftRows, m => Machine.invShiftRows m
  | .invMixColumns, m => Machine.invMixColumns m

/-- The 56 steps of ENC, in order (R108). -/
def encSteps : List DatapathStep :=
  [.addRoundKey 0] ++
    middleRounds.flatMap (fun r => [.subBytes, .shiftRows, .mixColumns, .addRoundKey r]) ++
    [.subBytes, .shiftRows, .addRoundKey 14]

/-- The 56 steps of DEC, in order (R116). -/
def decSteps : List DatapathStep :=
  [.addRoundKey 14, .invShiftRows, .invSubBytes] ++
    middleRounds.reverse.flatMap (fun r => [.addRoundKey r, .invMixColumns, .invShiftRows, .invSubBytes]) ++
    [.addRoundKey 0]

/-- The index after a step: idle once the command's last step is done (R24). -/
def Sequencer.advance : Sequencer → Sequencer
  | .idle => .idle
  | .expand nk i => if i + 1 < 120 then .expand nk (i + 1) else .idle
  | .encrypt i => if i + 1 < 56 then .encrypt (i + 1) else .idle
  | .decrypt i => if i + 1 < 56 then .decrypt (i + 1) else .idle

/-- `STATE` after step `i` of a list of steps. -/
def runStepAt (steps : List DatapathStep) (i : Nat) (w : Schedule) (m : StateMatrix) : StateMatrix :=
  match steps[i]? with
  | some d => d.run w m
  | none => m

/-- One tick: the step the sequencer names is done on `W` or on `STATE`, and the index moves on (R24). -/
def tick (s : State) : State :=
  match s.seq with
  | .idle => s
  | .expand nk i => { s with w := expandWord nk i s.w, seq := s.seq.advance }
  | .encrypt i => { s with matrix := runStepAt encSteps i s.w s.matrix, seq := s.seq.advance }
  | .decrypt i => { s with matrix := runStepAt decSteps i s.w s.matrix, seq := s.seq.advance }

/-- `n` ticks. -/
def ticks : Nat → State → State
  | 0, s => s
  | n + 1, s => ticks n (tick s)

/-- LOADKEY starts: the key words are in `W`, and the sequencer stands at word `Nk` (R24, R86, R92). -/
def beginExpand (nk : Nat) (s : State) : State :=
  { s with w := loadKeyWords nk s.key s.w, seq := .expand nk nk }

/-- ENC starts: `STATE` holds the zero-extended source (R37, R100, R124, R125). -/
def beginEncrypt (len : Nat) (s : State) : State :=
  { s with matrix := load (zeroExtend len s.din), seq := .encrypt 0 }

/-- DEC starts: `STATE` holds all of `DIN` (R37, R100, R128). -/
def beginDecrypt (s : State) : State :=
  { s with matrix := load s.din, seq := .decrypt 0 }

/-- ENC and DEC end: `STATE` is copied to `DOUT`, and its own value is unspecified from here on (R28, R37),
so it is a free value (notes/assumptions/3.md). -/
def finishBlock (s : State) : State :=
  { s with
    dout := store s.matrix
    matrix := Config.freeMatrix s.freeCount
    freeCount := s.freeCount + 1 }

end Sys2Proof.Machine
end

