-- ==== Sys2Proof/Machine/Commands.lean ====
section
/-!
DEFINITION. The meanings of LOADKEY, ENC and DEC and of an illegal word (45_commands.md rules R121, R124,
R128 and R131). Each checks before it works (R132), runs the sequencer to its end (R24), and writes `ERR`
once, last (R120). A command is one step of the machine (R50, R157). notes/assumptions/9.md.
-/

namespace Sys2Proof.Machine

/-- `LOADKEY len` (R121): a legal length expands `KEY[0..len-1]` into `W`; any other leaves no usable key. -/
def execLoadkey (len : Nat) (s : State) : Result :=
  if keyLenOk len then
    .next (setErr .ok (setKeyLoaded (len / 4) (ticks (120 - len / 4) (beginExpand (len / 4) s))))
  else .next (raiseError .keySize (clearKeyLoaded s))

/-- `ENC len` (R124): `ERR_NOKEY` before `ERR_SRCLEN` (R140), else the 56 steps of R108. -/
def execEnc (len : Nat) (s : State) : Result :=
  if s.kv = false then .next (raiseError .noKey s)
  else if encLenOk len then .next (setErr .ok (finishBlock (ticks 56 (beginEncrypt len s))))
  else .next (raiseError .srcLen s)

/-- `DEC len` (R128): `ERR_NOKEY` before `ERR_SRCLEN` (R140), else the 56 steps of R116. -/
def execDec (len : Nat) (s : State) : Result :=
  if s.kv = false then .next (raiseError .noKey s)
  else if decLenOk len then .next (setErr .ok (finishBlock (ticks 56 (beginDecrypt s))))
  else .next (raiseError .srcLen s)

/-- `BADCMD` (R131): only `ERR` changes. -/
def execBadCmd (s : State) : Result := .next (raiseError .badCmd s)

/-- Whether a command passes its checks, so that it ends with `ERR = OK` (R121, R124, R128, R132). -/
def accepts (i : Instr) (s : State) : Bool :=
  match i with
  | .loadkey len => keyLenOk len
  | .enc len => s.kv && encLenOk len
  | .dec len => s.kv && decLenOk len

/-- A command's first state change after its checks: the sequencer leaves idle (R24). -/
def beginCommand (i : Instr) (s : State) : State :=
  match i with
  | .loadkey len => beginExpand (len / 4) s
  | .enc len => beginEncrypt len s
  | .dec _ => beginDecrypt s

/-- The block in the middle of the command a write of `v` to `CMD` started, `k` ticks of the sequencer after
its checks: what a reset may find (R152). A word that is no command, or a command that its checks reject,
has nothing in progress. -/
def inProgress (v : Word) (k : Nat) (s : State) : State :=
  match decode v with
  | .ok i => if accepts i s then ticks k (beginCommand i s) else s
  | .error _ => s

end Sys2Proof.Machine
end

