-- ==== Sys2Proof/Machine/Port.lean ====
section
/-!
DEFINITION. The host port: what the block does with one host access (20_memory.md rules R43 to R47), a
write to `CMD` among them (45_commands.md rule R120), and with the platform's reset
(70_reset_and_hazards.md rules R151 and R152).
-/

namespace Sys2Proof.Machine

/-- A write of `v` to `CMD` runs exactly one command, and is acknowledged when the command is done (R50, R120). -/
def runCommand (v : Word) (s : State) : Result :=
  acknowledge <|
    match decode v with
    | .ok i => exec i s
    | .error _ => execBadCmd s

/-- A read that the block carries out: the register's word, and no side effect (R45, R46). -/
def performRead (r : Reg) (s : State) : State :=
  match readReg s r with
  | some v => respond (.readData v) s
  | none => busError .read s

/-- A write that the block carries out: a word of `KEY` or `DIN` changes, or a command runs (R45, R46). -/
def performWrite (r : Reg) (v : Word) (s : State) : Result :=
  match r with
  | .cmd => runCommand v s
  | .keyW j => .next (respond .writeAck (writeKeyWord j v s))
  | .dinW j => .next (respond .writeAck (writeDinWord j v s))
  | .status => .next (busError (.write v) s)
  | .doutW _ => .next (busError (.write v) s)

/-- One host access (R43, R44). -/
def performAccess (a : Access) (s : State) : Result :=
  match accessReg a with
  | none => .next (busError a.dir s)
  | some r =>
    match a.dir with
    | .read => .next (performRead r s)
    | .write v => performWrite r v s

/-- One event at the port. A reset during a command aborts it: the write that started it gets no answer,
and the state is that of reset (R152). -/
def performEvent (e : PortEvent) (s : State) : Result :=
  match e with
  | .access a => performAccess a s
  | .reset => .next (resetBlock s)
  | .resetDuring v k => .next (resetBlock (inProgress v k s))

/-- The write of a command word to `CMD` (R29, R63). -/
def cmdWrite (v : Word) : Access := { off := 0x00#7, size := 4, dir := .write v }

end Sys2Proof.Machine
end

