-- ==== Sys2Proof/Machine/Step.lean ====
section
/-!
DEFINITION. One step of the machine: the port delivers its next event and the block performs it
(20_memory.md rules R50 and R51). With nothing to deliver the block is idle and holds its state
(60_exceptions.md rule R150).
-/

namespace Sys2Proof.Machine

/-- One step. -/
def step (s : State) : Host.Outcome State Fault Refusal :=
  match s.port with
  | [] => .next s
  | e :: rest => performEvent e { s with port := rest }

/-- `s` with a write of the command word `w` to `CMD` (its low `nbits` bits) as the next event the port
delivers, ahead of what it had to deliver. The block fetches nothing (R23, R54): its "instruction" is the
word written to `CMD`. notes/assumptions/6.md. -/
def State.withFetchWord (s : State) (nbits w : Nat) : State :=
  { s with port := .access (cmdWrite (BitVec.ofNat 32 (w % 2 ^ nbits))) :: s.port }

end Sys2Proof.Machine
end

