-- ==== Sys2Proof/Machine/HostAsm.lean ====
section
/-!
DEFINITION. The host assembly notation (30_encoding.md rules R63 to R65): the lines of a host program, the
bus accesses each line stands for, and the reading of a line's text. A host program is no state of the
block (R21); it reaches the block as accesses at the port. notes/assumptions/13.md and 14.md.
-/

namespace Sys2Proof.Machine

/-- One line of a host program (R63, R64, R65). -/
inductive AsmLine where
  /-- `WR off, imm32` (R63). -/
  | wr (off : Offset) (imm : Word)
  /-- `RD off` (R63). -/
  | rd (off : Offset)
  /-- `LOADKEY n` (R64). -/
  | loadkey (n : Nat)
  /-- `ENC n` (R64). -/
  | enc (n : Nat)
  /-- `DEC n` (R64). -/
  | dec (n : Nat)
  /-- `CMDRAW imm32` (R64). -/
  | cmdraw (imm : Word)
  /-- `SETKEY data` (R65). -/
  | setkey (data : List Byte)
  /-- `SETDIN data` (R65). -/
  | setdin (data : List Byte)
  /-- `GETDOUT` (R65). -/
  | getdout
  /-- `GETSTATUS` (R65). -/
  | getstatus
  deriving DecidableEq, Repr

/-- The data of `SETKEY` and `SETDIN` is at most 32 bytes (R65). -/
def AsmLine.wf : AsmLine → Bool
  | .setkey d => d.length ≤ 32
  | .setdin d => d.length ≤ 32
  | _ => true

/-- `data` zero-padded to 32 bytes: `p[0..31]` (R65). -/
def padData (d : List Byte) : Block := Vector.ofFn fun i : Fin 32 => d.getD i.val 0x00#8

/-- `MemRead(off, 4)` (R17, R63). -/
def readAt (off : Offset) : Access := { off := off, size := 4, dir := .read }

/-- `MemWrite(off, 4, v)` (R17, R63). -/
def writeAt (off : Offset) (v : Word) : Access := { off := off, size := 4, dir := .write v }

/-- Eight writes that fill the buffer at offset `base` with `p` (R65). -/
def fillBuffer (base : Offset) (p : Block) : List Access :=
  (List.finRange 8).map fun j => writeAt (base + BitVec.ofNat 7 (4 * j.val)) (bufWord p j)

/-- The word a command mnemonic stands for: `zext_32({n[7:0], op})`, `op` a byte (R64). -/
def mnemonicWord (n : Nat) (op : BitVec 8) : Word := 0#16 ++ (BitVec.ofNat 8 n ++ op)

/-- The bus accesses of one line (R63, R64, R65). -/
def AsmLine.expand : AsmLine → List Access
  | .wr off imm => [writeAt off imm]
  | .rd off => [readAt off]
  | .loadkey n => [writeAt 0x00#7 (mnemonicWord n 0x01#8)]
  | .enc n => [writeAt 0x00#7 (mnemonicWord n 0x02#8)]
  | .dec n => [writeAt 0x00#7 (mnemonicWord n 0x03#8)]
  | .cmdraw imm => [writeAt 0x00#7 imm]
  | .setkey d => fillBuffer 0x20#7 (padData d)
  | .setdin d => fillBuffer 0x40#7 (padData d)
  | .getdout => (List.finRange 8).map fun j => readAt (0x60#7 + BitVec.ofNat 7 (4 * j.val))
  | .getstatus => [readAt 0x04#7]

/-- The accesses of a host program, run once, top to bottom (R63); none where a line is ill formed. -/
def assemble (p : List AsmLine) : Option (List Access) :=
  if p.all AsmLine.wf then some (p.flatMap AsmLine.expand) else none

/-- `s` with these accesses at the end of what the port has to deliver. -/
def State.withAccesses (s : State) (as : List Access) : State :=
  { s with port := s.port ++ as.map PortEvent.access }

/-- How a host presents a source length: 255 for every length that cannot be encoded (R57, R126). -/
def presentLen (n : Nat) : Nat := min n 255

/-! The text of a line (R63 to R65), as a list of characters. -/

/-- The decimal digits, each at the place that is its value (R64). -/
def decimals : List Char := ['0', '1', '2', '3', '4', '5', '6', '7', '8', '9']

/-- The hexadecimal digits as the spec's lines write them, each at the place that is its value (R63). -/
def hexadecimals : List Char := decimals ++ ['A', 'B', 'C', 'D', 'E', 'F']

/-- The same digits with small letters (notes/assumptions/14.md). -/
def smallHexadecimals : List Char := decimals ++ ['a', 'b', 'c', 'd', 'e', 'f']

/-- The value of a decimal digit: its place among them. -/
def decDigit (c : Char) : Option Nat := decimals.idxOf? c

/-- The value of a hexadecimal digit, of either case. -/
def hexDigit (c : Char) : Option Nat := hexadecimals.idxOf? c <|> smallHexadecimals.idxOf? c

/-- A numeral in a base, most significant digit first, continuing from `acc`. -/
def digitsFrom (base : Nat) (digit : Char → Option Nat) : Nat → List Char → Option Nat
  | acc, [] => some acc
  | acc, c :: cs =>
    match digit c with
    | some d => digitsFrom base digit (base * acc + d) cs
    | none => none

/-- A nonempty numeral below a bound. -/
def numeral (base : Nat) (digit : Char → Option Nat) (bound : Nat) (cs : List Char) : Option Nat :=
  if cs.isEmpty then none else (digitsFrom base digit 0 cs).filter fun n => n < bound

/-- A hexadecimal number with a `0x` in front (R63). -/
def readHex (bound : Nat) : List Char → Option Nat
  | '0' :: 'x' :: cs => numeral 16 hexDigit bound cs
  | _ => none

/-- The length of a command line, in decimal; any length may be written and its low 8 bits count (R64). -/
def readLen (cs : List Char) : Option Nat := (digitsFrom 10 decDigit 0 cs).filter fun _ => !cs.isEmpty

/-- Bytes written as pairs of hexadecimal digits. -/
def readHexBytes : List Char → Option (List Byte)
  | [] => some []
  | [_] => none
  | a :: b :: cs =>
    match hexDigit a, hexDigit b, readHexBytes cs with
    | some h, some l, some ds => some (BitVec.ofNat 8 (16 * h + l) :: ds)
    | _, _, _ => none

/-- The ASCII codes of a text (93_implementation_defined.md G1); none where a character has no such code. -/
def asciiBytes (cs : List Char) : Option (List Byte) :=
  if cs.all (fun c => c.toNat < 128) then some (cs.map fun c => BitVec.ofNat 8 c.toNat) else none

/-- The data of `SETKEY` and `SETDIN`: a text in double quotes, or `hex:` and bytes (R65). -/
def readData : List Char → Option (List Byte)
  | '"' :: cs =>
    if cs.getLast? = some '"' ∧ '"' ∉ cs.dropLast then asciiBytes cs.dropLast else none
  | 'h' :: 'e' :: 'x' :: ':' :: cs => readHexBytes cs
  | _ => none

/-- A line without its comment (R63: a `;` starts a comment). That a `;` inside a double-quoted text is text and
starts none is the model's choice: R63 excepts none, and R65 allows any ASCII text in quotes (DESIGN CHOICE,
notes/assumptions/14.md). -/
def dropComment : Bool → List Char → List Char
  | _, [] => []
  | inText, c :: cs =>
    if c = ';' ∧ inText = false then [] else c :: dropComment (if c = '"' then !inText else inText) cs

/-- A line without spaces at its ends. -/
def trim (cs : List Char) : List Char :=
  ((cs.dropWhile (· = ' ')).reverse.dropWhile (· = ' ')).reverse

/-- The two operands of `WR`, at the first comma (R63). -/
def readWr (cs : List Char) : Option AsmLine :=
  match cs.span (· ≠ ',') with
  | (o, _ :: v) =>
    match readHex 0x80 (trim o), readHex (2 ^ 32) (trim v) with
    | some off, some imm => some (.wr (BitVec.ofNat 7 off) (BitVec.ofNat 32 imm))
    | _, _ => none
  | _ => none

/-- A line's text (R63, R64, R65): a mnemonic, and its operands after spaces. None where it is no line; an
empty line or a comment alone is none of the forms the rules give. -/
def readLine (text : List Char) : Option AsmLine :=
  let line := trim (dropComment false text)
  let (name, rest) := line.span (· ≠ ' ')
  let arg := trim rest
  match String.ofList name with
  | "WR" => readWr arg
  | "RD" => (readHex 0x80 arg).map fun off => .rd (BitVec.ofNat 7 off)
  | "LOADKEY" => (readLen arg).map .loadkey
  | "ENC" => (readLen arg).map .enc
  | "DEC" => (readLen arg).map .dec
  | "CMDRAW" => (readHex (2 ^ 32) arg).map fun v => .cmdraw (BitVec.ofNat 32 v)
  | "SETKEY" => (readData arg).map .setkey
  | "SETDIN" => (readData arg).map .setdin
  | "GETDOUT" => if arg.isEmpty then some .getdout else none
  | "GETSTATUS" => if arg.isEmpty then some .getstatus else none
  | _ => none

end Sys2Proof.Machine
end

