-- ==== Sys2Proof/Machine/Timing.lean ====
section
/-!
DEFINITION. Latency, in cycles of the host bus clock (70_reset_and_hazards.md rules R157 and R158). The
numbers are open (Config). No value rule depends on them, and the step does not count them.
notes/assumptions/12.md.
-/

namespace Sys2Proof.Machine

/-- The latency of a command that succeeds (R157): `LAT_LOADKEY` may depend on `len`, the others on nothing. -/
def instrLatency : Instr → Nat
  | .loadkey len => Config.latLoadkey len
  | .enc _ => Config.latEnc
  | .dec _ => Config.latDec

/-- The latency of the command a write of `v` to `CMD` runs, from the start of the write to its
acknowledgement: a command that ends in an error takes `LAT_ERR` (R157). -/
def commandLatency (v : Word) (s : State) : Nat :=
  match decode v with
  | .ok i => if accepts i s then instrLatency i else Config.latErr
  | .error _ => Config.latErr

end Sys2Proof.Machine
end

