-- ==== Sys2Proof/Safety.lean ====
section
/-!
DEFINITION. What counts as a sound state and a harmless step, in the terms the claims use: the invariants of
10_state.md rules R24, R35 and R36, what a host can see (R40), and the two relations the noninterference
claims compare states by.
-/

namespace Sys2Proof.Machine

/-- `KV = 1` if and only if `NK` is 4, 6 or 8, and `KV = 0` if and only if `NK = 0` (R35). -/
abbrev State.StatusOk (s : State) : Prop :=
  (s.kv = true ↔ s.nk = 4#4 ∨ s.nk = 6#4 ∨ s.nk = 8#4) ∧ (s.kv = false ↔ s.nk = 0#4)

/-- `ERR` holds one of the codes 0 to 4 (R136). -/
abbrev State.ErrOk (s : State) : Prop := s.err.toNat ≤ 4

/-- No command is in progress (R24). -/
abbrev State.Idle (s : State) : Prop := s.seq = .idle

/-- `W` from word `Nk` on obeys the recurrence of R92. -/
abbrev scheduleExpanded (nk : Nat) (w : Schedule) : Prop :=
  ∀ i : Fin 120, 0 < i.val → nk ≤ i.val → w[i] = w[i.val - nk] ^^^ scheduleTemp nk i.val w[i.val - 1]

/-- While `KV = 1`, `W` is an expanded schedule for the `Nk` that `STATUS.NK` reports (R36). -/
abbrev State.ScheduleOk (s : State) : Prop := s.kv = true → scheduleExpanded s.nk.toNat s.w

/-- Two states a host can never tell apart, whatever it does: they agree on all but `STATE`, the count of
free values and, while no key is loaded, `W` (R40). -/
abbrev State.Alike (s t : State) : Prop :=
  s.key = t.key ∧ s.din = t.din ∧ s.dout = t.dout ∧ s.kv = t.kv ∧ s.err = t.err ∧ s.nk = t.nk ∧
    (s.kv = true → s.w = t.w) ∧ s.seq = t.seq ∧ s.port = t.port ∧ s.responses = t.responses

/-- Two states that agree on all the host may read: `STATUS`, `DIN`, `DOUT` and what the port gave. The key,
the schedule and the other hidden state may differ (R42, R145). -/
abbrev State.SameToReads (s t : State) : Prop :=
  s.din = t.din ∧ s.dout = t.dout ∧ s.kv = t.kv ∧ s.err = t.err ∧ s.nk = t.nk ∧ s.port = t.port ∧
    s.responses = t.responses

/-- Two states that differ in the port's fields only: nothing of the block differs. -/
abbrev State.SameBlock (s t : State) : Prop :=
  s.key = t.key ∧ s.din = t.din ∧ s.dout = t.dout ∧ s.kv = t.kv ∧ s.err = t.err ∧ s.nk = t.nk ∧
    s.w = t.w ∧ s.matrix = t.matrix ∧ s.seq = t.seq ∧ s.freeCount = t.freeCount

/-- The accesses the window allows, by their offset: size 4, a multiple of 4, and for a read `STATUS`, `DIN_W`
or `DOUT_W`, for a write `CMD`, `KEY_W` or `DIN_W` (R42, R43). -/
abbrev Access.Allowed (a : Access) : Prop :=
  a.size = 4 ∧ a.off.toNat % 4 = 0 ∧
    (a.dir = .read → a.off.toNat = 0x04 ∨ 0x40 ≤ a.off.toNat) ∧
    (a.dir ≠ .read → a.off.toNat = 0x00 ∨ (0x20 ≤ a.off.toNat ∧ a.off.toNat < 0x60))

/-- The event is a LOADKEY of a legal length: the one event that loads a key (R31). -/
abbrev PortEvent.LoadsKey (e : PortEvent) : Prop :=
  ∃ v len, e = .access (cmdWrite v) ∧ decode v = .ok (.loadkey len) ∧ (len = 16 ∨ len = 24 ∨ len = 32)

/-- The event is the platform's reset, between commands or during one (R151, R152). -/
abbrev PortEvent.IsReset (e : PortEvent) : Prop := e = .reset ∨ ∃ v k, e = .resetDuring v k

/-- The host copies `DOUT` to `DIN`: eight word writes of the words it read (R130). -/
def copyDoutToDin (s : State) : State :=
  (List.finRange 8).foldl (fun t j => writeDinWord j (bufWord s.dout j) t) s

end Sys2Proof.Machine
end

