-- ==== Sys2Proof/Certificates/Slice0/Obligations.lean ====
section
/-!
DEFINITION. The statements of this model, for the provers. Each formalises rules of spec/ that its docstring
names; OBLIGATIONS.json lists them. Where a statement speaks of an event, `port` begins with it.
-/

open Sys2Proof Sys2Proof.Machine

/-! ## The encoding (30_encoding.md) -/

/-- R55, R56, R57: no bit of a command is lost in its word. -/
def Obligations.DecodeOfEncodeIsTheCommand : Prop :=
  ∀ i : Instr, i.wf = true → decode (encode i) = .ok i

/-- R55, R59: a word that decodes is the word of its command, and the command is well formed. -/
def Obligations.EncodeOfDecodeIsTheWord : Prop :=
  ∀ (v : Word) (i : Instr), decode v = .ok i → i.wf = true ∧ encode i = v

/-- R59: `decode(v)`, with the fields of `v` as the numbers its bits make. -/
def Obligations.DecodeFollowsTheFields : Prop :=
  ∀ v : Word,
    (v.toNat / 2 ^ 16 ≠ 0 ∨ v.toNat / 2 ^ 4 % 2 ^ 4 ≠ 0 → ∃ b, decode v = .error b) ∧
    (v.toNat / 2 ^ 16 = 0 → v.toNat / 2 ^ 4 % 2 ^ 4 = 0 →
      (v.toNat % 2 ^ 4 = 1 → decode v = .ok (.loadkey (v.toNat / 2 ^ 8 % 2 ^ 8))) ∧
      (v.toNat % 2 ^ 4 = 2 → decode v = .ok (.enc (v.toNat / 2 ^ 8 % 2 ^ 8))) ∧
      (v.toNat % 2 ^ 4 = 3 → decode v = .ok (.dec (v.toNat / 2 ^ 8 % 2 ^ 8))) ∧
      (v.toNat % 2 ^ 4 = 0 ∨ 4 ≤ v.toNat % 2 ^ 4 → ∃ b, decode v = .error b))

/-- R61: the words that are commands are `0x0000LL01`, `0x0000LL02` and `0x0000LL03`, `LL` any byte. -/
def Obligations.LegalWordsAreThreeTimes256 : Prop :=
  ∀ v : Word, (∃ i, decode v = .ok i) ↔
    ∃ ll : Byte, v.toNat = 256 * ll.toNat + 1 ∨ v.toNat = 256 * ll.toNat + 2 ∨ v.toNat = 256 * ll.toNat + 3

/-- R66: the table of common commands: the line, the one write it stands for, and what the word decodes to. -/
def Obligations.TabledCommandWordsDecode : Prop :=
  ((AsmLine.loadkey 16).expand = [cmdWrite 0x00001001#32] ∧ decode 0x00001001#32 = .ok (.loadkey 16)) ∧
  ((AsmLine.loadkey 24).expand = [cmdWrite 0x00001801#32] ∧ decode 0x00001801#32 = .ok (.loadkey 24)) ∧
  ((AsmLine.loadkey 32).expand = [cmdWrite 0x00002001#32] ∧ decode 0x00002001#32 = .ok (.loadkey 32)) ∧
  ((AsmLine.loadkey 33).expand = [cmdWrite 0x00002101#32] ∧ decode 0x00002101#32 = .ok (.loadkey 33) ∧
    exec (.loadkey 33) State.reset = .next { State.reset with err := 1#4 }) ∧
  ((AsmLine.enc 3).expand = [cmdWrite 0x00000302#32] ∧ decode 0x00000302#32 = .ok (.enc 3)) ∧
  ((AsmLine.enc 8).expand = [cmdWrite 0x00000802#32] ∧ decode 0x00000802#32 = .ok (.enc 8)) ∧
  ((AsmLine.enc 32).expand = [cmdWrite 0x00002002#32] ∧ decode 0x00002002#32 = .ok (.enc 32)) ∧
  ((AsmLine.dec 32).expand = [cmdWrite 0x00002003#32] ∧ decode 0x00002003#32 = .ok (.dec 32)) ∧
  ((AsmLine.cmdraw 0x00000000#32).expand = [cmdWrite 0x00000000#32] ∧ decode 0x00000000#32 = .error .opcode) ∧
  ((AsmLine.cmdraw 0x00001011#32).expand = [cmdWrite 0x00001011#32] ∧ decode 0x00001011#32 = .error .rsv0) ∧
  ((AsmLine.cmdraw 0x00011001#32).expand = [cmdWrite 0x00011001#32] ∧ decode 0x00011001#32 = .error .rsv1) ∧
  ((AsmLine.cmdraw 0x00002004#32).expand = [cmdWrite 0x00002004#32] ∧ decode 0x00002004#32 = .error .opcode)

/-! ## The step (45_commands.md R120, 20_memory.md R50) -/

/-- R50, R120: a step whose event writes a command word to `CMD` is that command's `exec` on the state without
the event, and then the acknowledgement of the write. -/
def Obligations.StepRunsTheCommandWritten : Prop :=
  ∀ (s : State) (v : Word) (rest : List PortEvent) (i : Instr),
    s.port = .access (cmdWrite v) :: rest → decode v = .ok i →
      ∃ t, exec i { s with port := rest } = .next t ∧
        step s = .next { t with responses := t.responses ++ [.writeAck] }

/-- R29, R120 for what the command does. That the word placed by `withFetchWord` stands in front of all pending events and
so runs next, at any state, is the model's choice (DESIGN CHOICE, notes/assumptions/6.md), and the reading of
`(nbits, w)` as one word is DEDUCED (notes/assumptions/18.md). -/
def Obligations.PlacedWordRunsNext : Prop :=
  ∀ (s : State) (nbits w : Nat) (i : Instr), decodeTableWord nbits w = some i →
    ∃ t, exec i s = .next t ∧
      step (s.withFetchWord nbits w) = .next { t with responses := t.responses ++ [.writeAck] }

/-- No event stops the block; every step answers a next state. This is the model's reading and not a rule: it is DEDUCED
from R137 and R138 (notes/assumptions/8.md, which says when it is unsafe), and that a step with an empty port answers
too is the model's choice (notes/assumptions/6.md). -/
def Obligations.EveryStepCompletes : Prop :=
  ∀ s : State, ∃ t, step s = .next t

/-- R150 (and notes/assumptions/6.md for the empty port): with nothing to perform, the block holds its state. -/
def Obligations.IdleBlockHoldsItsState : Prop :=
  ∀ s : State, s.port = [] → step s = .next s

/-- R60: an illegal word sets `ERR` to 4 and changes no other state of the block; the write is acknowledged. -/
def Obligations.IllegalWordOnlySetsErr : Prop :=
  (∀ (s : State) (v : Word) (rest : List PortEvent), s.port = .access (cmdWrite v) :: rest →
    (v.toNat / 2 ^ 16 ≠ 0 ∨ v.toNat / 2 ^ 4 % 2 ^ 4 ≠ 0 ∨ v.toNat % 2 ^ 4 = 0 ∨ 4 ≤ v.toNat % 2 ^ 4) →
      step s = .next { s with port := rest, err := 4#4, responses := s.responses ++ [.writeAck] }) ∧
  (∀ v : Word, (∃ b, decode v = .error b) →
    v.toNat / 2 ^ 16 ≠ 0 ∨ v.toNat / 2 ^ 4 % 2 ^ 4 ≠ 0 ∨ v.toNat % 2 ^ 4 = 0 ∨ 4 ≤ v.toNat % 2 ^ 4) ∧
  (∃ b, decode 0x00000000#32 = .error b)

/-! ## The commands (45_commands.md) -/

/-- R121: LOADKEY of a legal length replaces `W` by `Expand(Nk, KEY[0..len-1])` and sets the flags; it writes
neither `KEY`, `DIN`, `DOUT` nor `STATE`, and leaves the sequencer idle. -/
def Obligations.LoadkeyLoadsTheSchedule : Prop :=
  ∀ (s : State) (len : Nat), len = 16 ∨ len = 24 ∨ len = 32 →
    ∃ t, exec (.loadkey len) s = .next t ∧
      t.w = expandKey (len / 4) s.key ∧ t.kv = true ∧ t.nk.toNat = len / 4 ∧ t.err = 0#4 ∧
      t.key = s.key ∧ t.din = s.din ∧ t.dout = s.dout ∧ t.matrix = s.matrix ∧ t.seq = .idle ∧
      t.port = s.port ∧ t.responses = s.responses ∧ t.freeCount = s.freeCount

/-- R122 and R121's failure: every other length is rejected with code 1 and changes only the flags; while no key is loaded
ENC and DEC of every length give code 3, and no event but a LOADKEY of a legal length loads a key again. -/
def Obligations.RejectedKeyLeavesNoKey : Prop :=
  (∀ (s : State) (len : Nat), len ≠ 16 → len ≠ 24 → len ≠ 32 →
    ∃ t, exec (.loadkey len) s = .next t ∧ t = { s with kv := false, nk := 0#4, err := 1#4 } ∧
      statusWord t = 0x00000010#32) ∧
  (∀ (s : State) (n : Nat), s.kv = false →
    exec (.enc n) s = .next { s with err := 3#4 } ∧ exec (.dec n) s = .next { s with err := 3#4 }) ∧
  (∀ (s t : State) (e : PortEvent) (rest : List PortEvent), s.port = e :: rest → s.kv = false →
    ¬ PortEvent.LoadsKey e → step s = .next t → t.kv = false) ∧
  decode 0x00002101#32 = .ok (.loadkey 33)

/-- R86, R92: the words of `Expand(Nk, K)`: the key, big-endian, and then the recurrence. -/
def Obligations.ExpandObeysTheRecurrence : Prop :=
  ∀ (nk : Nat) (key : Block), nk = 4 ∨ nk = 6 ∨ nk = 8 →
    (∀ i : Fin 8, i.val < nk →
      (expandKey nk key)[i.val] =
        wordOfBytes key[4 * i.val] key[4 * i.val + 1] key[4 * i.val + 2] key[4 * i.val + 3]) ∧
    (∀ i : Fin 120, nk ≤ i.val →
      (expandKey nk key)[i] = (expandKey nk key)[i.val - nk] ^^^
        (if i.val % nk = 0 then subWord (rotWord (expandKey nk key)[i.val - 1]) ^^^ rcon (i.val / nk)
         else if i.val % nk = 4 then subWord (expandKey nk key)[i.val - 1]
         else (expandKey nk key)[i.val - 1]))

/-- R93: which branch fires at which word, for each `Nk`, and how often. -/
def Obligations.ExpandBranchTable : Prop :=
  (∀ (i : Nat) (p : Word), 4 ≤ i → i < 120 →
    scheduleTemp 4 i p = if i ∈ (List.range 29).map (4 * · + 4) then subWord (rotWord p) ^^^ rcon (i / 4) else p) ∧
  (∀ (i : Nat) (p : Word), 6 ≤ i → i < 120 →
    scheduleTemp 6 i p =
      if i ∈ (List.range 19).map (6 * · + 6) then subWord (rotWord p) ^^^ rcon (i / 6)
      else if i ∈ (List.range 19).map (6 * · + 10) then subWord p else p) ∧
  (∀ (i : Nat) (p : Word), 8 ≤ i → i < 120 →
    scheduleTemp 8 i p =
      if i ∈ (List.range 14).map (8 * · + 8) then subWord (rotWord p) ^^^ rcon (i / 8)
      else if i ∈ (List.range 14).map (8 * · + 12) then subWord p else p)

/-- R94, R121: the schedule a LOADKEY leaves depends on `KEY[0..len-1]` alone: not on the key bytes from `len` on,
not on the schedule before, not on any other state. -/
def Obligations.ScheduleDependsOnTheKeyAlone : Prop :=
  ∀ (s s' t t' : State) (len : Nat), len = 16 ∨ len = 24 ∨ len = 32 →
    (∀ i : Fin 32, i.val < len → s.key[i] = s'.key[i]) →
      exec (.loadkey len) s = .next t → exec (.loadkey len) s' = .next t' → t.w = t'.w

/-- R124: ENC under a key, of at most 32 bytes: `DOUT` is `Cipher` of the zero-extended source, although the engine
works in 56 steps on `STATE`; nothing else but `ERR` changes (`STATE` is unspecified afterwards, R37). R126: a longer
source is rejected with code 2, and nothing else changes. -/
def Obligations.EncWritesTheCipher : Prop :=
  (∀ (s : State) (len : Nat), s.kv = true → len ≤ 32 →
    ∃ t, exec (.enc len) s = .next t ∧
      t.dout = cipher (zeroExtend len s.din) s.w ∧ t.err = 0#4 ∧
      t.key = s.key ∧ t.din = s.din ∧ t.kv = s.kv ∧ t.nk = s.nk ∧ t.w = s.w ∧ t.seq = .idle ∧
      t.port = s.port ∧ t.responses = s.responses) ∧
  (∀ (s : State) (len : Nat), s.kv = true → 32 < len → exec (.enc len) s = .next { s with err := 2#4 })

/-- R128, R129: DEC under a key, of 32 bytes: `DOUT` is all 32 bytes of `InvCipher` of `DIN`; nothing else but `ERR`
changes (`STATE` is unspecified afterwards, R37). A source of any other length is rejected with code 2, and nothing else
changes. -/
def Obligations.DecWritesTheInverseCipher : Prop :=
  (∀ s : State, s.kv = true →
    ∃ t, exec (.dec 32) s = .next t ∧
      t.dout = invCipher s.din s.w ∧ t.err = 0#4 ∧
      t.key = s.key ∧ t.din = s.din ∧ t.kv = s.kv ∧ t.nk = s.nk ∧ t.w = s.w ∧ t.seq = .idle ∧
      t.port = s.port ∧ t.responses = s.responses) ∧
  (∀ (s : State) (len : Nat), s.kv = true → len ≠ 32 → exec (.dec len) s = .next { s with err := 2#4 })

/-- R140: one code for each `CMD` write, the first that applies: `ERR_BADCMD`, then `ERR_NOKEY` for ENC and DEC, then
`ERR_KEYSIZE` for LOADKEY and `ERR_SRCLEN` for ENC and DEC. LOADKEY does not check `KV`. -/
def Obligations.OneErrorInPriorityOrder : Prop :=
  (∀ (s : State) (v : Word) (rest : List PortEvent), s.port = .access (cmdWrite v) :: rest →
    ∃ t, step s = .next t ∧ t.err =
      match decode v with
      | .error _ => 4#4
      | .ok (.loadkey len) => if len = 16 ∨ len = 24 ∨ len = 32 then 0#4 else 1#4
      | .ok (.enc len) => if s.kv = false then 3#4 else if len > 32 then 2#4 else 0#4
      | .ok (.dec len) => if s.kv = false then 3#4 else if len ≠ 32 then 2#4 else 0#4) ∧
  (decode 0x00002802#32 = .ok (.enc 40)) ∧ (∃ b, decode 0x00010002#32 = .error b)

/-- R132, R137: a command that ends in an error has changed only `STATUS`, and `KV` and `NK` only if it is LOADKEY. -/
def Obligations.FailedCommandChangesOnlyStatus : Prop :=
  ∀ (i : Instr) (s t : State), exec i s = .next t → t.err ≠ 0#4 →
    t = { s with kv := t.kv, nk := t.nk, err := t.err } ∧
    ((∀ len, i ≠ .loadkey len) → t = { s with err := t.err })

/-- R125, R127: what ENC writes to `DOUT` depends on `DIN[0..len-1]`, `len` and `W` alone; and sources that differ only
in trailing zero bytes give the same result. -/
def Obligations.EncDependsOnTheSourceAlone : Prop :=
  ∀ (s s' t t' : State) (m n : Nat), s.kv = true → s'.kv = true → s.w = s'.w → m ≤ n → n ≤ 32 →
    (∀ i : Fin 32, i.val < m → s.din[i] = s'.din[i]) →
    (∀ i : Fin 32, m ≤ i.val → i.val < n → s'.din[i] = 0x00#8) →
      exec (.enc m) s = .next t → exec (.enc n) s' = .next t' → t.dout = t'.dout

/-- R118: for any schedule at all, `InvCipher` undoes `Cipher`. -/
def Obligations.InvCipherUndoesCipher : Prop :=
  ∀ (p : Block) (w : Schedule), invCipher (cipher p w) w = p

/-- R130: for every key of a legal length and every source, the host sequence LOADKEY, ENC, copy `DOUT` to `DIN`, DEC 32
gives the source back, zero-extended. -/
def Obligations.HostRoundTrip : Prop :=
  ∀ (s : State) (len n : Nat), len = 16 ∨ len = 24 ∨ len = 32 → n ≤ 32 →
    ∃ t u v, exec (.loadkey len) s = .next t ∧ exec (.enc n) t = .next u ∧
      exec (.dec 32) (copyDoutToDin u) = .next v ∧ v.err = 0#4 ∧
      ∀ i : Fin 32, v.dout[i] = if i.val < n then s.din[i] else 0x00#8

/-! ## Flags and invariants (10_state.md) -/

/-- R34: which event writes which flag. -/
def Obligations.FlagsFollowTheEventTable : Prop :=
  ∀ (s t : State) (e : PortEvent) (rest : List PortEvent), s.port = e :: rest → step s = .next t →
    (PortEvent.IsReset e → t.kv = false ∧ t.err = 0#4 ∧ t.nk = 0#4) ∧
    (∀ v len, e = .access (cmdWrite v) → decode v = .ok (.loadkey len) → len = 16 ∨ len = 24 ∨ len = 32 →
      t.kv = true ∧ t.err = 0#4 ∧ t.nk.toNat = len / 4) ∧
    (∀ v len, e = .access (cmdWrite v) → decode v = .ok (.loadkey len) → ¬ (len = 16 ∨ len = 24 ∨ len = 32) →
      t.kv = false ∧ t.err = 1#4 ∧ t.nk = 0#4) ∧
    (∀ v len, e = .access (cmdWrite v) → decode v = .ok (.enc len) →
      t.kv = s.kv ∧ t.nk = s.nk ∧
        (s.kv = true ∧ len ≤ 32 → t.err = 0#4) ∧ (¬ (s.kv = true ∧ len ≤ 32) → t.err = 2#4 ∨ t.err = 3#4)) ∧
    (∀ v len, e = .access (cmdWrite v) → decode v = .ok (.dec len) →
      t.kv = s.kv ∧ t.nk = s.nk ∧
        (s.kv = true ∧ len = 32 → t.err = 0#4) ∧ (¬ (s.kv = true ∧ len = 32) → t.err = 2#4 ∨ t.err = 3#4)) ∧
    (∀ v b, e = .access (cmdWrite v) → decode v = .error b → t.kv = s.kv ∧ t.err = 4#4 ∧ t.nk = s.nk) ∧
    (∀ a, e = .access a → (∀ v, a ≠ cmdWrite v) → t.kv = s.kv ∧ t.err = s.err ∧ t.nk = s.nk)

/-- R35: every step keeps `KV = 1` if and only if `NK` is 4, 6 or 8, and `KV = 0` if and only if `NK = 0`. -/
def Obligations.StatusInvariantIsKept : Prop :=
  ∀ s t : State, s.StatusOk → step s = .next t → t.StatusOk

/-- R136: every step keeps `ERR` among the codes 0 to 4. -/
def Obligations.ErrStaysALegalCode : Prop :=
  ∀ s t : State, s.ErrOk → step s = .next t → t.ErrOk

/-- R24: every step that starts with the sequencer idle ends with it idle. -/
def Obligations.SequencerIsIdleBetweenCommands : Prop :=
  ∀ s t : State, s.Idle → step s = .next t → t.Idle

/-- R36: every step keeps `W` an expanded schedule for `NK` while `KV = 1`. -/
def Obligations.ScheduleInvariantIsKept : Prop :=
  ∀ s t : State, s.ScheduleOk → step s = .next t → t.ScheduleOk

/-- R41: what reset leaves, in every field to which the rule gives a value; and it has the invariants. -/
def Obligations.ResetLeavesTheStatedValues : Prop :=
  (∀ i : Fin 32, State.reset.key[i] = 0x00#8 ∧ State.reset.din[i] = 0x00#8 ∧ State.reset.dout[i] = 0x00#8) ∧
  State.reset.kv = false ∧ State.reset.err = 0#4 ∧ State.reset.nk = 0#4 ∧ State.reset.seq = .idle ∧
  State.reset.StatusOk ∧ State.reset.ErrOk ∧ State.reset.Idle ∧ State.reset.ScheduleOk

/-- R26, R27: no event writes `KEY` but a word write to it, nor `DIN` but a word write to it, or a reset; and such a write
changes that word only. -/
def Obligations.KeyAndDinChangeOnlyByHostWrites : Prop :=
  ∀ (s t : State) (e : PortEvent) (rest : List PortEvent), s.port = e :: rest → step s = .next t →
    ¬ PortEvent.IsReset e →
    (t.key = s.key ∨ ∃ (j : Fin 8) (v : Word), e = .access (writeAt (BitVec.ofNat 7 (0x20 + 4 * j.val)) v) ∧
      bufWord t.key j = v ∧ ∀ k : Fin 8, k ≠ j → bufWord t.key k = bufWord s.key k) ∧
    (t.din = s.din ∨ ∃ (j : Fin 8) (v : Word), e = .access (writeAt (BitVec.ofNat 7 (0x40 + 4 * j.val)) v) ∧
      bufWord t.din j = v ∧ ∀ k : Fin 8, k ≠ j → bufWord t.din k = bufWord s.din k)

/-- R28, R31, R36: `DOUT` changes only by a successful ENC or DEC, `W` only by a successful LOADKEY, or by a reset. -/
def Obligations.DoutAndScheduleChangeOnlyByCommands : Prop :=
  ∀ (s t : State) (e : PortEvent) (rest : List PortEvent), s.port = e :: rest → step s = .next t →
    ¬ PortEvent.IsReset e →
    (t.dout = s.dout ∨ ∃ v len, e = .access (cmdWrite v) ∧ s.kv = true ∧ t.err = 0#4 ∧
      (decode v = .ok (.enc len) ∧ len ≤ 32 ∨ decode v = .ok (.dec 32))) ∧
    (t.w = s.w ∨ PortEvent.LoadsKey e)

/-! ## The host window (20_memory.md) -/

/-- R42: the register at every offset. -/
def Obligations.WindowMap : Prop :=
  ∀ off : Offset,
    (regAt off = some .cmd ↔ off.toNat = 0x00) ∧ (regAt off = some .status ↔ off.toNat = 0x04) ∧
    (∀ j : Fin 8, (regAt off = some (.keyW j) ↔ off.toNat = 0x20 + 4 * j.val) ∧
      (regAt off = some (.dinW j) ↔ off.toNat = 0x40 + 4 * j.val) ∧
      (regAt off = some (.doutW j) ↔ off.toNat = 0x60 + 4 * j.val))

/-- R42, R43: the accesses the block carries out are exactly these, of size 4: reads of `STATUS`, `DIN_W` and `DOUT_W`,
and writes of `CMD`, `KEY_W` and `DIN_W`; no other access reaches a register. -/
def Obligations.AllowedAccessesAreTheListedOnes : Prop :=
  (∀ a : Access, a.Allowed ↔ a = readAt 0x04#7 ∨ (∃ v, a = writeAt 0x00#7 v) ∨
    ∃ j : Fin 8, a = readAt (BitVec.ofNat 7 (0x40 + 4 * j.val)) ∨ a = readAt (BitVec.ofNat 7 (0x60 + 4 * j.val)) ∨
      ∃ v, a = writeAt (BitVec.ofNat 7 (0x20 + 4 * j.val)) v ∨ a = writeAt (BitVec.ofNat 7 (0x40 + 4 * j.val)) v) ∧
  (∀ a : Access, a.Allowed ↔ ∃ r, accessReg a = some r)

/-- R43, R44: an access that is not allowed is a bus error: no state of the block changes, a read gets the data word
0x00000000 with the error response, and a write is discarded. -/
def Obligations.BusErrorLeavesTheBlock : Prop :=
  ∀ (s : State) (a : Access) (rest : List PortEvent), s.port = .access a :: rest → ¬ a.Allowed →
    (a.dir = .read → step s = .next { s with port := rest, responses := s.responses ++ [.readError 0x00000000#32] }) ∧
    (∀ v, a.dir = .write v → step s = .next { s with port := rest, responses := s.responses ++ [.writeError] })

/-- R45, R46, R47: an allowed read returns its word and has no side effect. -/
def Obligations.AllowedReadsReturnTheirWord : Prop :=
  ∀ (s : State) (rest : List PortEvent) (off : Offset), s.port = .access (readAt off) :: rest →
    (off.toNat = 0x04 →
      step s = .next { s with port := rest, responses := s.responses ++ [.readData (statusWord s)] }) ∧
    (∀ j : Fin 8, off.toNat = 0x40 + 4 * j.val →
      step s = .next { s with port := rest, responses := s.responses ++ [.readData
        (wordOfBytes s.din[4 * j.val] s.din[4 * j.val + 1] s.din[4 * j.val + 2] s.din[4 * j.val + 3])] }) ∧
    (∀ j : Fin 8, off.toNat = 0x60 + 4 * j.val →
      step s = .next { s with port := rest, responses := s.responses ++ [.readData
        (wordOfBytes s.dout[4 * j.val] s.dout[4 * j.val + 1] s.dout[4 * j.val + 2] s.dout[4 * j.val + 3])] })

/-- R45, R46, R47: an allowed write of a word of `KEY` or `DIN` sets its four bytes, byte `4j` from bits 31:24, and changes
no other byte and no other state. -/
def Obligations.AllowedWritesSetTheirBytes : Prop :=
  ∀ (s : State) (rest : List PortEvent) (j : Fin 8) (v : Word),
    (s.port = .access (writeAt (BitVec.ofNat 7 (0x20 + 4 * j.val)) v) :: rest →
      ∃ t, step s = .next t ∧
        t.key[4 * j.val] = v.extractLsb' 24 8 ∧ t.key[4 * j.val + 1] = v.extractLsb' 16 8 ∧
        t.key[4 * j.val + 2] = v.extractLsb' 8 8 ∧ t.key[4 * j.val + 3] = v.extractLsb' 0 8 ∧
        (∀ i : Fin 32, i.val / 4 ≠ j.val → t.key[i] = s.key[i]) ∧
        t = { s with port := rest, key := t.key, responses := s.responses ++ [.writeAck] }) ∧
    (s.port = .access (writeAt (BitVec.ofNat 7 (0x40 + 4 * j.val)) v) :: rest →
      ∃ t, step s = .next t ∧
        t.din[4 * j.val] = v.extractLsb' 24 8 ∧ t.din[4 * j.val + 1] = v.extractLsb' 16 8 ∧
        t.din[4 * j.val + 2] = v.extractLsb' 8 8 ∧ t.din[4 * j.val + 3] = v.extractLsb' 0 8 ∧
        (∀ i : Fin 32, i.val / 4 ≠ j.val → t.din[i] = s.din[i]) ∧
        t = { s with port := rest, din := t.din, responses := s.responses ++ [.writeAck] })

/-- R30: the fields of the `STATUS` word in place, and zero in every reserved bit. -/
def Obligations.StatusWordHoldsItsFields : Prop :=
  ∀ s : State, (statusWord s).toNat =
    2 ^ 8 * s.nk.toNat + 2 ^ 4 * s.err.toNat + (if s.kv = true then 1 else 0)

/-- R145: an access that runs no command answers the same, and leaves the same to read, whatever the key, the schedule and
the other hidden state are. -/
def Obligations.NoBusAccessReturnsKeyMaterial : Prop :=
  ∀ (s s' t t' : State) (a : Access) (rest : List PortEvent), s.SameToReads s' → s.port = .access a :: rest →
    (∀ v, a ≠ cmdWrite v) → step s = .next t → step s' = .next t' → t.SameToReads t'

/-- R37, R40, R41: what a host can see never depends on `STATE`, nor on `W` while no key is loaded: steps of two states that
agree on all else agree on all else again. -/
def Obligations.UnspecifiedStateIsUnobservable : Prop :=
  ∀ s s' t t' : State, s.Alike s' → step s = .next t → step s' = .next t' → t.Alike t'

/-! ## Reset (70_reset_and_hazards.md) -/

/-- R151: a reset sets every piece of state to its value of R41; the model's port fields stay (notes/assumptions/10.md),
and nothing is claimed of `W` and `STATE`, which are unspecified. -/
def Obligations.ResetEventSetsTheState : Prop :=
  ∀ (s : State) (rest : List PortEvent), s.port = .reset :: rest →
    ∃ t, step s = .next t ∧ t.key = State.reset.key ∧ t.din = State.reset.din ∧ t.dout = State.reset.dout ∧
      statusWord t = 0x00000000#32 ∧ t.kv = false ∧ t.err = 0#4 ∧ t.nk = 0#4 ∧ t.seq = .idle ∧
      t.port = rest ∧ t.responses = s.responses

/-- R152: a reset in the middle of any command leaves a state that no host can tell from the one a reset between commands
leaves, whatever the command had done, and the write that started the command gets no answer. `W` and `STATE` are
unspecified after either (R41, R151) and nothing is said of them. The form of the event, one event with its `CMD` write
and a number of ticks, is the model's choice (notes/assumptions/11.md), and so is the field of responses
(notes/assumptions/7.md). -/
def Obligations.ResetAbortsTheCommand : Prop :=
  ∀ (s t t' : State) (v : Word) (k : Nat) (rest : List PortEvent), s.port = .resetDuring v k :: rest →
    step s = .next t → step { s with port := .reset :: rest } = .next t' → t.Alike t' ∧ t.responses = s.responses

/-! ## Arithmetic and tables (40_gf_arith.md, 41_sbox.md, 42_key_schedule.md) -/

/-- R68: `xtime` doubles, and reduces by 0x11B when bit 8 comes up; it is a permutation. -/
def Obligations.XtimeDoublesModulo0x11B : Prop :=
  (∀ b : Byte, (xtime b).toNat = if 2 * b.toNat < 256 then 2 * b.toNat else (2 * b.toNat) ^^^ 0x11B) ∧
  (∀ b : Byte, xtime b = (b <<< 1) ^^^ (if b.getLsbD 7 then 0x1B#8 else 0x00#8)) ∧
  (∀ a b : Byte, xtime a = xtime b → a = b) ∧
  xtime 0x00 = 0x00 ∧ xtime 0x80 = 0x1B ∧ (∀ b : Byte, b <<< 1 = 0x00#8 → b = 0x00#8 ∨ b = 0x80#8) ∧
  xtime 0xFF = 0xE5 ∧ xtime 0x57 = 0xAE ∧ xtime 0xAE = 0x47

/-- R69: `gmul(a, b)` is the sum of `xtime`'s powers of `a` at the bits of `b`. -/
def Obligations.GmulSumsDoublings : Prop :=
  ∀ a b : Byte, gmul a b = (List.range 8).foldl (fun p i => if b.getLsbD i then p ^^^ xtime^[i] a else p) 0x00#8

/-- R70: `gmul` makes the bytes a field. -/
def Obligations.GmulFieldLaws : Prop :=
  (∀ a b : Byte, gmul a b = gmul b a) ∧
  (∀ a b c : Byte, gmul (gmul a b) c = gmul a (gmul b c)) ∧
  (∀ a b c : Byte, gmul a (b ^^^ c) = gmul a b ^^^ gmul a c) ∧
  (∀ a : Byte, gmul a 0x01 = a ∧ gmul 0x01 a = a) ∧
  (∀ a : Byte, gmul a 0x00 = 0x00 ∧ gmul 0x00 a = 0x00) ∧
  (∀ a b : Byte, gmul a b = 0x00 → a = 0x00 ∨ b = 0x00)

/-- R71: the products by the constants of the datapath. -/
def Obligations.ConstantProducts : Prop :=
  ∀ a : Byte, gmul 0x01 a = a ∧ gmul 0x02 a = xtime a ∧ gmul 0x03 a = xtime a ^^^ a ∧
    gmul 0x09 a = xtime (xtime (xtime a)) ^^^ a ∧
    gmul 0x0B a = xtime (xtime (xtime a)) ^^^ xtime a ^^^ a ∧
    gmul 0x0D a = xtime (xtime (xtime a)) ^^^ xtime (xtime a) ^^^ a ∧
    gmul 0x0E a = xtime (xtime (xtime a)) ^^^ xtime (xtime a) ^^^ xtime a

/-- R72: `ginv(x)` is the unique inverse of a nonzero `x`, 0 maps to 0, and `ginv` undoes itself. -/
def Obligations.GinvIsTheInverse : Prop :=
  ginv 0x00 = 0x00 ∧ ginv 0x01 = 0x01 ∧ ginv 0x53 = 0xCA ∧
  (∀ x y : Byte, x ≠ 0x00 → (gmul x y = 0x01 ↔ y = ginv x)) ∧ (∀ x : Byte, ginv (ginv x) = x)

/-- R76, R77: the S-box ROM is the affine transform of the inverse, and no byte is fixed or complemented. -/
def Obligations.SboxIsAffineOfTheInverse : Prop :=
  (∀ x : Byte, sbox x = affine (ginv x)) ∧ sbox 0x00 = 0x63 ∧ sbox 0x53 = 0xED ∧
  (∀ x : Byte, sbox x ≠ x ∧ sbox x ≠ x ^^^ 0xFF)

/-- R79, R81: the two ROMs are inverse permutations, and `INVSBOX` has the closed form of R79. -/
def Obligations.SboxesAreInverse : Prop :=
  (∀ x : Byte, invSbox (sbox x) = x ∧ sbox (invSbox x) = x) ∧
  (∀ y : Byte, invSbox y = ginv (rotl8 y 1 ^^^ rotl8 y 3 ^^^ rotl8 y 6 ^^^ 0x05)) ∧
  (∀ y : Byte, invSbox y ≠ y)

/-- R87, R88, R89, R91: the word operations on byte tuples, and the round constants by their recurrence. -/
def Obligations.WordOperationsAndRoundConstants : Prop :=
  (∀ a b c d : Byte, rotWord (wordOfBytes a b c d) = wordOfBytes b c d a ∧
    subWord (wordOfBytes a b c d) = wordOfBytes (sbox a) (sbox b) (sbox c) (sbox d)) ∧
  (∀ w : Word, subWord (rotWord w) = rotWord (subWord w)) ∧
  rc 1 = 0x01 ∧ (∀ j, 1 < j → j ≤ 29 → rc j = xtime (rc (j - 1))) ∧
  (∀ j, rcon j = wordOfBytes (rc j) 0x00 0x00 0x00)

/-! ## Rounds (43_round_forward.md, 44_round_inverse.md) -/

/-- R100: block and state are two views of the same 32 bytes, column by column. -/
def Obligations.LoadAndStoreAreColumnMajor : Prop :=
  (∀ (b : Block) (r : Fin 4) (c : Fin 8), (load b)[r][c] = b[4 * c.val + r.val]) ∧
  (∀ b : Block, store (load b) = b) ∧ (∀ m : StateMatrix, load (store m) = m)

/-- R95: `RK[r][j][c] = W[8r+c][31-8j : 24-8j]`; and R96: `RK[0]` starts with the key, its first `Nk` columns. -/
def Obligations.RoundKeyIsAViewOfTheSchedule : Prop :=
  (∀ (w : Schedule) (r : Fin 15) (j : Fin 4) (c : Fin 8) (b : Fin 8),
    ((roundKey w r)[j][c]).getLsbD b.val = (w[8 * r.val + c.val]).getLsbD (24 - 8 * j.val + b.val)) ∧
  (∀ (nk : Nat) (key : Block), nk = 4 ∨ nk = 6 ∨ nk = 8 → ∀ (j : Fin 4) (c : Fin 8), c.val < nk →
    (roundKey (expandKey nk key) 0)[j][c] = key[4 * c.val + j.val])

/-- R102, R103, R112: the byte at row `r`, column `c` moves to column `(c - shift(r)) mod 8` under `ShiftRows`, and to
`(c + shift(r)) mod 8` under `InvShiftRows`, with the offsets 0, 1, 3 and 4. -/
def Obligations.ShiftRowsMovesBytes : Prop :=
  ∀ (m : StateMatrix) (r : Fin 4) (c d : Fin 8),
    (d.val = (c.val + 8 - #v[0, 1, 3, 4][r]) % 8 → (shiftRows m)[r][d] = m[r][c]) ∧
    (d.val = (c.val + #v[0, 1, 3, 4][r]) % 8 → (invShiftRows m)[r][d] = m[r][c])

/-- R104, R114: a column of four equal bytes is unchanged by `MixColumns` and by `InvMixColumns`, and a column's result
depends on that column alone. -/
def Obligations.MixColumnsActsOnColumns : Prop :=
  (∀ (m : StateMatrix) (c : Fin 8) (b : Byte), (∀ r : Fin 4, m[r][c] = b) →
    ∀ r : Fin 4, (mixColumns m)[r][c] = b ∧ (invMixColumns m)[r][c] = b) ∧
  (∀ (m m' : StateMatrix) (c d : Fin 8), (∀ r : Fin 4, m[r][c] = m'[r][d]) →
    ∀ r : Fin 4, (mixColumns m)[r][c] = (mixColumns m')[r][d] ∧ (invMixColumns m)[r][c] = (invMixColumns m')[r][d])

/-- R115: each inverse step undoes its forward step, for every state. -/
def Obligations.InverseStepsUndoForwardSteps : Prop :=
  ∀ m : StateMatrix, invSubBytes (subBytes m) = m ∧ invShiftRows (shiftRows m) = m ∧
    invMixColumns (mixColumns m) = m ∧ ∀ (w : Schedule) (r : Fin 15), addRoundKey w r (addRoundKey w r m) = m

/-- R117: `AddRoundKey` and `MixColumns` do not commute; `InvShiftRows` and `InvSubBytes` do. -/
def Obligations.OrderOfInverseSteps : Prop :=
  (∃ (w : Schedule) (r : Fin 15) (m : StateMatrix),
    invMixColumns (addRoundKey w r m) ≠ addRoundKey w r (invMixColumns m)) ∧
  (∀ m : StateMatrix, invShiftRows (invSubBytes m) = invSubBytes (invShiftRows m))

/-- R24, R108, R116: 56 steps each way, the round keys in order 0 to 14 and 14 to 0, and no `MixColumns` in the final
round. -/
def Obligations.StepListsOfTheSequencer : Prop :=
  encSteps.length = 56 ∧ decSteps.length = 56 ∧
  encSteps.filterMap (fun d => match d with | .addRoundKey r => some r.val | _ => none) = List.range 15 ∧
  decSteps.filterMap (fun d => match d with | .addRoundKey r => some r.val | _ => none) = (List.range 15).reverse ∧
  encSteps.drop 53 = [.subBytes, .shiftRows, .addRoundKey 14]

/-- R24: which step the sequencer is at depends only on where it started, never on key or data values; a command takes 56
steps, or for LOADKEY `120 - Nk`, and then the sequencer is idle. -/
def Obligations.SequenceIgnoresKeyAndData : Prop :=
  (∀ (k : Nat) (s t : State), s.seq = t.seq → (ticks k s).seq = (ticks k t).seq) ∧
  (∀ (s : State) (len k : Nat), 0 < k → k < 56 → (ticks k (beginEncrypt len s)).seq = .encrypt k ∧
    (ticks k (beginDecrypt s)).seq = .decrypt k) ∧
  (∀ (s : State) (len : Nat), (ticks 56 (beginEncrypt len s)).seq = .idle ∧ (ticks 56 (beginDecrypt s)).seq = .idle) ∧
  (∀ (s : State) (nk : Nat), nk < 120 → (ticks (120 - nk) (beginExpand nk s)).seq = .idle)

/-! ## Latency and host programs (70_reset_and_hazards.md R157 and R158, 30_encoding.md R65) -/

/-- R157, R158: a command's latency is at least 1, and depends on the word and on whether the command succeeds, not on the
values of `KEY`, `DIN` or `W`. -/
def Obligations.LatencyIgnoresKeyAndData : Prop :=
  (∀ (v : Word) (s t : State), s.kv = t.kv → commandLatency v s = commandLatency v t) ∧
  (∀ (v : Word) (s : State), 1 ≤ commandLatency v s) ∧
  (∀ (i : Instr) (s t : State), exec i s = .next t → (accepts i s = true ↔ t.err = 0#4))

/-- R65: `SETKEY` and `SETDIN` leave their data, zero-padded, in the buffer, and `GETDOUT` reads the eight words of `DOUT`. -/
def Obligations.PseudoLinesFillAndRead : Prop :=
  ∀ (s : State) (d : List Byte), s.port = [] → d.length ≤ 32 →
    Host.Core.run Sys2Proof.core 8 (s.withAccesses (AsmLine.setkey d).expand) =
      .next { s with key := padData d, responses := s.responses ++ List.replicate 8 .writeAck } ∧
    Host.Core.run Sys2Proof.core 8 (s.withAccesses (AsmLine.setdin d).expand) =
      .next { s with din := padData d, responses := s.responses ++ List.replicate 8 .writeAck } ∧
    Host.Core.run Sys2Proof.core 8 (s.withAccesses AsmLine.getdout.expand) =
      .next { s with responses := s.responses ++ (List.finRange 8).map fun j => .readData (bufWord s.dout j) }
end

