-- ==== Sys2Proof/Laws/State.lean ====
section
/-!
SUPPORT. What each update of the state does to each field: one lemma per field per update, so that no proof
unfolds a record update.
-/

namespace Sys2Proof.Machine

@[simp] theorem ErrCode.bits_ok : ErrCode.bits .ok = 0#4 := rfl
@[simp] theorem ErrCode.bits_keySize : ErrCode.bits .keySize = 1#4 := rfl
@[simp] theorem ErrCode.bits_srcLen : ErrCode.bits .srcLen = 2#4 := rfl
@[simp] theorem ErrCode.bits_noKey : ErrCode.bits .noKey = 3#4 := rfl
@[simp] theorem ErrCode.bits_badCmd : ErrCode.bits .badCmd = 4#4 := rfl

@[simp] theorem setErr_key (c : ErrCode) (s : State) : (setErr c s).key = s.key := by
  simp only [setErr]
@[simp] theorem setErr_din (c : ErrCode) (s : State) : (setErr c s).din = s.din := by
  simp only [setErr]
@[simp] theorem setErr_dout (c : ErrCode) (s : State) : (setErr c s).dout = s.dout := by
  simp only [setErr]
@[simp] theorem setErr_kv (c : ErrCode) (s : State) : (setErr c s).kv = s.kv := by
  simp only [setErr]
@[simp] theorem setErr_err (c : ErrCode) (s : State) : (setErr c s).err = c.bits := by
  simp only [setErr]
@[simp] theorem setErr_nk (c : ErrCode) (s : State) : (setErr c s).nk = s.nk := by
  simp only [setErr]
@[simp] theorem setErr_w (c : ErrCode) (s : State) : (setErr c s).w = s.w := by
  simp only [setErr]
@[simp] theorem setErr_matrix (c : ErrCode) (s : State) : (setErr c s).matrix = s.matrix := by
  simp only [setErr]
@[simp] theorem setErr_seq (c : ErrCode) (s : State) : (setErr c s).seq = s.seq := by
  simp only [setErr]
@[simp] theorem setErr_port (c : ErrCode) (s : State) : (setErr c s).port = s.port := by
  simp only [setErr]
@[simp] theorem setErr_responses (c : ErrCode) (s : State) : (setErr c s).responses = s.responses := by
  simp only [setErr]
@[simp] theorem setErr_freeCount (c : ErrCode) (s : State) : (setErr c s).freeCount = s.freeCount := by
  simp only [setErr]

@[simp] theorem raiseError_key (c : ErrCode) (s : State) : (raiseError c s).key = s.key := rfl
@[simp] theorem raiseError_din (c : ErrCode) (s : State) : (raiseError c s).din = s.din := rfl
@[simp] theorem raiseError_dout (c : ErrCode) (s : State) : (raiseError c s).dout = s.dout := rfl
@[simp] theorem raiseError_kv (c : ErrCode) (s : State) : (raiseError c s).kv = s.kv := rfl
@[simp] theorem raiseError_err (c : ErrCode) (s : State) : (raiseError c s).err = c.bits := rfl
@[simp] theorem raiseError_nk (c : ErrCode) (s : State) : (raiseError c s).nk = s.nk := rfl
@[simp] theorem raiseError_w (c : ErrCode) (s : State) : (raiseError c s).w = s.w := rfl
@[simp] theorem raiseError_matrix (c : ErrCode) (s : State) : (raiseError c s).matrix = s.matrix := rfl
@[simp] theorem raiseError_seq (c : ErrCode) (s : State) : (raiseError c s).seq = s.seq := rfl
@[simp] theorem raiseError_port (c : ErrCode) (s : State) : (raiseError c s).port = s.port := rfl
@[simp] theorem raiseError_responses (c : ErrCode) (s : State) : (raiseError c s).responses = s.responses := rfl
@[simp] theorem raiseError_freeCount (c : ErrCode) (s : State) : (raiseError c s).freeCount = s.freeCount := rfl

@[simp] theorem setKeyLoaded_key (n : Nat) (s : State) : (setKeyLoaded n s).key = s.key := by
  simp only [setKeyLoaded]
@[simp] theorem setKeyLoaded_din (n : Nat) (s : State) : (setKeyLoaded n s).din = s.din := by
  simp only [setKeyLoaded]
@[simp] theorem setKeyLoaded_dout (n : Nat) (s : State) : (setKeyLoaded n s).dout = s.dout := by
  simp only [setKeyLoaded]
@[simp] theorem setKeyLoaded_kv (n : Nat) (s : State) : (setKeyLoaded n s).kv = true := by
  simp only [setKeyLoaded]
@[simp] theorem setKeyLoaded_err (n : Nat) (s : State) : (setKeyLoaded n s).err = s.err := by
  simp only [setKeyLoaded]
@[simp] theorem setKeyLoaded_nk (n : Nat) (s : State) : (setKeyLoaded n s).nk = BitVec.ofNat 4 n := by
  simp only [setKeyLoaded]
@[simp] theorem setKeyLoaded_w (n : Nat) (s : State) : (setKeyLoaded n s).w = s.w := by
  simp only [setKeyLoaded]
@[simp] theorem setKeyLoaded_matrix (n : Nat) (s : State) : (setKeyLoaded n s).matrix = s.matrix := by
  simp only [setKeyLoaded]
@[simp] theorem setKeyLoaded_seq (n : Nat) (s : State) : (setKeyLoaded n s).seq = s.seq := by
  simp only [setKeyLoaded]
@[simp] theorem setKeyLoaded_port (n : Nat) (s : State) : (setKeyLoaded n s).port = s.port := by
  simp only [setKeyLoaded]
@[simp] theorem setKeyLoaded_responses (n : Nat) (s : State) : (setKeyLoaded n s).responses = s.responses := by
  simp only [setKeyLoaded]
@[simp] theorem setKeyLoaded_freeCount (n : Nat) (s : State) : (setKeyLoaded n s).freeCount = s.freeCount := by
  simp only [setKeyLoaded]

@[simp] theorem clearKeyLoaded_key (s : State) : (clearKeyLoaded s).key = s.key := by
  simp only [clearKeyLoaded]
@[simp] theorem clearKeyLoaded_din (s : State) : (clearKeyLoaded s).din = s.din := by
  simp only [clearKeyLoaded]
@[simp] theorem clearKeyLoaded_dout (s : State) : (clearKeyLoaded s).dout = s.dout := by
  simp only [clearKeyLoaded]
@[simp] theorem clearKeyLoaded_kv (s : State) : (clearKeyLoaded s).kv = false := by
  simp only [clearKeyLoaded]
@[simp] theorem clearKeyLoaded_err (s : State) : (clearKeyLoaded s).err = s.err := by
  simp only [clearKeyLoaded]
@[simp] theorem clearKeyLoaded_nk (s : State) : (clearKeyLoaded s).nk = 0#4 := by
  simp only [clearKeyLoaded]
@[simp] theorem clearKeyLoaded_w (s : State) : (clearKeyLoaded s).w = s.w := by
  simp only [clearKeyLoaded]
@[simp] theorem clearKeyLoaded_matrix (s : State) : (clearKeyLoaded s).matrix = s.matrix := by
  simp only [clearKeyLoaded]
@[simp] theorem clearKeyLoaded_seq (s : State) : (clearKeyLoaded s).seq = s.seq := by
  simp only [clearKeyLoaded]
@[simp] theorem clearKeyLoaded_port (s : State) : (clearKeyLoaded s).port = s.port := by
  simp only [clearKeyLoaded]
@[simp] theorem clearKeyLoaded_responses (s : State) : (clearKeyLoaded s).responses = s.responses := by
  simp only [clearKeyLoaded]
@[simp] theorem clearKeyLoaded_freeCount (s : State) : (clearKeyLoaded s).freeCount = s.freeCount := by
  simp only [clearKeyLoaded]

@[simp] theorem respond_key (r : BusResponse) (s : State) : (respond r s).key = s.key := by
  simp only [respond]
@[simp] theorem respond_din (r : BusResponse) (s : State) : (respond r s).din = s.din := by
  simp only [respond]
@[simp] theorem respond_dout (r : BusResponse) (s : State) : (respond r s).dout = s.dout := by
  simp only [respond]
@[simp] theorem respond_kv (r : BusResponse) (s : State) : (respond r s).kv = s.kv := by
  simp only [respond]
@[simp] theorem respond_err (r : BusResponse) (s : State) : (respond r s).err = s.err := by
  simp only [respond]
@[simp] theorem respond_nk (r : BusResponse) (s : State) : (respond r s).nk = s.nk := by
  simp only [respond]
@[simp] theorem respond_w (r : BusResponse) (s : State) : (respond r s).w = s.w := by
  simp only [respond]
@[simp] theorem respond_matrix (r : BusResponse) (s : State) : (respond r s).matrix = s.matrix := by
  simp only [respond]
@[simp] theorem respond_seq (r : BusResponse) (s : State) : (respond r s).seq = s.seq := by
  simp only [respond]
@[simp] theorem respond_port (r : BusResponse) (s : State) : (respond r s).port = s.port := by
  simp only [respond]
@[simp] theorem respond_responses (r : BusResponse) (s : State) : (respond r s).responses = s.responses ++ [r] := by
  simp only [respond]
@[simp] theorem respond_freeCount (r : BusResponse) (s : State) : (respond r s).freeCount = s.freeCount := by
  simp only [respond]

@[simp] theorem resetBlock_key (s : State) : (resetBlock s).key = Vector.replicate 32 0#8 := by
  simp only [resetBlock]
@[simp] theorem resetBlock_din (s : State) : (resetBlock s).din = Vector.replicate 32 0#8 := by
  simp only [resetBlock]
@[simp] theorem resetBlock_dout (s : State) : (resetBlock s).dout = Vector.replicate 32 0#8 := by
  simp only [resetBlock]
@[simp] theorem resetBlock_kv (s : State) : (resetBlock s).kv = false := by
  simp only [resetBlock]
@[simp] theorem resetBlock_err (s : State) : (resetBlock s).err = 0#4 := by
  simp only [resetBlock, ErrCode.bits]
@[simp] theorem resetBlock_nk (s : State) : (resetBlock s).nk = 0#4 := by
  simp only [resetBlock]
@[simp] theorem resetBlock_w (s : State) : (resetBlock s).w = Config.freeSchedule s.freeCount := by
  simp only [resetBlock]
@[simp] theorem resetBlock_matrix (s : State) : (resetBlock s).matrix = Config.freeMatrix s.freeCount := by
  simp only [resetBlock]
@[simp] theorem resetBlock_seq (s : State) : (resetBlock s).seq = .idle := by
  simp only [resetBlock]
@[simp] theorem resetBlock_port (s : State) : (resetBlock s).port = s.port := by
  simp only [resetBlock]
@[simp] theorem resetBlock_responses (s : State) : (resetBlock s).responses = s.responses := by
  simp only [resetBlock]
@[simp] theorem resetBlock_freeCount (s : State) : (resetBlock s).freeCount = s.freeCount + 1 := by
  simp only [resetBlock]

@[simp] theorem writeKeyWord_key (j : Fin 8) (v : Word) (s : State) : (writeKeyWord j v s).key = setBufWord s.key j v := by
  simp only [writeKeyWord]
@[simp] theorem writeKeyWord_din (j : Fin 8) (v : Word) (s : State) : (writeKeyWord j v s).din = s.din := by
  simp only [writeKeyWord]
@[simp] theorem writeKeyWord_dout (j : Fin 8) (v : Word) (s : State) : (writeKeyWord j v s).dout = s.dout := by
  simp only [writeKeyWord]
@[simp] theorem writeKeyWord_kv (j : Fin 8) (v : Word) (s : State) : (writeKeyWord j v s).kv = s.kv := by
  simp only [writeKeyWord]
@[simp] theorem writeKeyWord_err (j : Fin 8) (v : Word) (s : State) : (writeKeyWord j v s).err = s.err := by
  simp only [writeKeyWord]
@[simp] theorem writeKeyWord_nk (j : Fin 8) (v : Word) (s : State) : (writeKeyWord j v s).nk = s.nk := by
  simp only [writeKeyWord]
@[simp] theorem writeKeyWord_w (j : Fin 8) (v : Word) (s : State) : (writeKeyWord j v s).w = s.w := by
  simp only [writeKeyWord]
@[simp] theorem writeKeyWord_matrix (j : Fin 8) (v : Word) (s : State) : (writeKeyWord j v s).matrix = s.matrix := by
  simp only [writeKeyWord]
@[simp] theorem writeKeyWord_seq (j : Fin 8) (v : Word) (s : State) : (writeKeyWord j v s).seq = s.seq := by
  simp only [writeKeyWord]
@[simp] theorem writeKeyWord_port (j : Fin 8) (v : Word) (s : State) : (writeKeyWord j v s).port = s.port := by
  simp only [writeKeyWord]
@[simp] theorem writeKeyWord_responses (j : Fin 8) (v : Word) (s : State) : (writeKeyWord j v s).responses = s.responses := by
  simp only [writeKeyWord]
@[simp] theorem writeKeyWord_freeCount (j : Fin 8) (v : Word) (s : State) : (writeKeyWord j v s).freeCount = s.freeCount := by
  simp only [writeKeyWord]

@[simp] theorem writeDinWord_key (j : Fin 8) (v : Word) (s : State) : (writeDinWord j v s).key = s.key := by
  simp only [writeDinWord]
@[simp] theorem writeDinWord_din (j : Fin 8) (v : Word) (s : State) : (writeDinWord j v s).din = setBufWord s.din j v := by
  simp only [writeDinWord]
@[simp] theorem writeDinWord_dout (j : Fin 8) (v : Word) (s : State) : (writeDinWord j v s).dout = s.dout := by
  simp only [writeDinWord]
@[simp] theorem writeDinWord_kv (j : Fin 8) (v : Word) (s : State) : (writeDinWord j v s).kv = s.kv := by
  simp only [writeDinWord]
@[simp] theorem writeDinWord_err (j : Fin 8) (v : Word) (s : State) : (writeDinWord j v s).err = s.err := by
  simp only [writeDinWord]
@[simp] theorem writeDinWord_nk (j : Fin 8) (v : Word) (s : State) : (writeDinWord j v s).nk = s.nk := by
  simp only [writeDinWord]
@[simp] theorem writeDinWord_w (j : Fin 8) (v : Word) (s : State) : (writeDinWord j v s).w = s.w := by
  simp only [writeDinWord]
@[simp] theorem writeDinWord_matrix (j : Fin 8) (v : Word) (s : State) : (writeDinWord j v s).matrix = s.matrix := by
  simp only [writeDinWord]
@[simp] theorem writeDinWord_seq (j : Fin 8) (v : Word) (s : State) : (writeDinWord j v s).seq = s.seq := by
  simp only [writeDinWord]
@[simp] theorem writeDinWord_port (j : Fin 8) (v : Word) (s : State) : (writeDinWord j v s).port = s.port := by
  simp only [writeDinWord]
@[simp] theorem writeDinWord_responses (j : Fin 8) (v : Word) (s : State) : (writeDinWord j v s).responses = s.responses := by
  simp only [writeDinWord]
@[simp] theorem writeDinWord_freeCount (j : Fin 8) (v : Word) (s : State) : (writeDinWord j v s).freeCount = s.freeCount := by
  simp only [writeDinWord]

@[simp] theorem beginExpand_key (n : Nat) (s : State) : (beginExpand n s).key = s.key := by
  simp only [beginExpand]
@[simp] theorem beginExpand_din (n : Nat) (s : State) : (beginExpand n s).din = s.din := by
  simp only [beginExpand]
@[simp] theorem beginExpand_dout (n : Nat) (s : State) : (beginExpand n s).dout = s.dout := by
  simp only [beginExpand]
@[simp] theorem beginExpand_kv (n : Nat) (s : State) : (beginExpand n s).kv = s.kv := by
  simp only [beginExpand]
@[simp] theorem beginExpand_err (n : Nat) (s : State) : (beginExpand n s).err = s.err := by
  simp only [beginExpand]
@[simp] theorem beginExpand_nk (n : Nat) (s : State) : (beginExpand n s).nk = s.nk := by
  simp only [beginExpand]
@[simp] theorem beginExpand_w (n : Nat) (s : State) : (beginExpand n s).w = loadKeyWords n s.key s.w := by
  simp only [beginExpand]
@[simp] theorem beginExpand_matrix (n : Nat) (s : State) : (beginExpand n s).matrix = s.matrix := by
  simp only [beginExpand]
@[simp] theorem beginExpand_seq (n : Nat) (s : State) : (beginExpand n s).seq = .expand n n := by
  simp only [beginExpand]
@[simp] theorem beginExpand_port (n : Nat) (s : State) : (beginExpand n s).port = s.port := by
  simp only [beginExpand]
@[simp] theorem beginExpand_responses (n : Nat) (s : State) : (beginExpand n s).responses = s.responses := by
  simp only [beginExpand]
@[simp] theorem beginExpand_freeCount (n : Nat) (s : State) : (beginExpand n s).freeCount = s.freeCount := by
  simp only [beginExpand]

@[simp] theorem beginEncrypt_key (len : Nat) (s : State) : (beginEncrypt len s).key = s.key := by
  simp only [beginEncrypt]
@[simp] theorem beginEncrypt_din (len : Nat) (s : State) : (beginEncrypt len s).din = s.din := by
  simp only [beginEncrypt]
@[simp] theorem beginEncrypt_dout (len : Nat) (s : State) : (beginEncrypt len s).dout = s.dout := by
  simp only [beginEncrypt]
@[simp] theorem beginEncrypt_kv (len : Nat) (s : State) : (beginEncrypt len s).kv = s.kv := by
  simp only [beginEncrypt]
@[simp] theorem beginEncrypt_err (len : Nat) (s : State) : (beginEncrypt len s).err = s.err := by
  simp only [beginEncrypt]
@[simp] theorem beginEncrypt_nk (len : Nat) (s : State) : (beginEncrypt len s).nk = s.nk := by
  simp only [beginEncrypt]
@[simp] theorem beginEncrypt_w (len : Nat) (s : State) : (beginEncrypt len s).w = s.w := by
  simp only [beginEncrypt]
@[simp] theorem beginEncrypt_matrix (len : Nat) (s : State) : (beginEncrypt len s).matrix = load (zeroExtend len s.din) := by
  simp only [beginEncrypt]
@[simp] theorem beginEncrypt_seq (len : Nat) (s : State) : (beginEncrypt len s).seq = .encrypt 0 := by
  simp only [beginEncrypt]
@[simp] theorem beginEncrypt_port (len : Nat) (s : State) : (beginEncrypt len s).port = s.port := by
  simp only [beginEncrypt]
@[simp] theorem beginEncrypt_responses (len : Nat) (s : State) : (beginEncrypt len s).responses = s.responses := by
  simp only [beginEncrypt]
@[simp] theorem beginEncrypt_freeCount (len : Nat) (s : State) : (beginEncrypt len s).freeCount = s.freeCount := by
  simp only [beginEncrypt]

@[simp] theorem beginDecrypt_key (s : State) : (beginDecrypt s).key = s.key := by
  simp only [beginDecrypt]
@[simp] theorem beginDecrypt_din (s : State) : (beginDecrypt s).din = s.din := by
  simp only [beginDecrypt]
@[simp] theorem beginDecrypt_dout (s : State) : (beginDecrypt s).dout = s.dout := by
  simp only [beginDecrypt]
@[simp] theorem beginDecrypt_kv (s : State) : (beginDecrypt s).kv = s.kv := by
  simp only [beginDecrypt]
@[simp] theorem beginDecrypt_err (s : State) : (beginDecrypt s).err = s.err := by
  simp only [beginDecrypt]
@[simp] theorem beginDecrypt_nk (s : State) : (beginDecrypt s).nk = s.nk := by
  simp only [beginDecrypt]
@[simp] theorem beginDecrypt_w (s : State) : (beginDecrypt s).w = s.w := by
  simp only [beginDecrypt]
@[simp] theorem beginDecrypt_matrix (s : State) : (beginDecrypt s).matrix = load s.din := by
  simp only [beginDecrypt]
@[simp] theorem beginDecrypt_seq (s : State) : (beginDecrypt s).seq = .decrypt 0 := by
  simp only [beginDecrypt]
@[simp] theorem beginDecrypt_port (s : State) : (beginDecrypt s).port = s.port := by
  simp only [beginDecrypt]
@[simp] theorem beginDecrypt_responses (s : State) : (beginDecrypt s).responses = s.responses := by
  simp only [beginDecrypt]
@[simp] theorem beginDecrypt_freeCount (s : State) : (beginDecrypt s).freeCount = s.freeCount := by
  simp only [beginDecrypt]

@[simp] theorem finishBlock_key (s : State) : (finishBlock s).key = s.key := by
  simp only [finishBlock]
@[simp] theorem finishBlock_din (s : State) : (finishBlock s).din = s.din := by
  simp only [finishBlock]
@[simp] theorem finishBlock_dout (s : State) : (finishBlock s).dout = store s.matrix := by
  simp only [finishBlock]
@[simp] theorem finishBlock_kv (s : State) : (finishBlock s).kv = s.kv := by
  simp only [finishBlock]
@[simp] theorem finishBlock_err (s : State) : (finishBlock s).err = s.err := by
  simp only [finishBlock]
@[simp] theorem finishBlock_nk (s : State) : (finishBlock s).nk = s.nk := by
  simp only [finishBlock]
@[simp] theorem finishBlock_w (s : State) : (finishBlock s).w = s.w := by
  simp only [finishBlock]
@[simp] theorem finishBlock_matrix (s : State) : (finishBlock s).matrix = Config.freeMatrix s.freeCount := by
  simp only [finishBlock]
@[simp] theorem finishBlock_seq (s : State) : (finishBlock s).seq = s.seq := by
  simp only [finishBlock]
@[simp] theorem finishBlock_port (s : State) : (finishBlock s).port = s.port := by
  simp only [finishBlock]
@[simp] theorem finishBlock_responses (s : State) : (finishBlock s).responses = s.responses := by
  simp only [finishBlock]
@[simp] theorem finishBlock_freeCount (s : State) : (finishBlock s).freeCount = s.freeCount + 1 := by
  simp only [finishBlock]

@[simp] theorem busError_key (d : Direction) (s : State) : (busError d s).key = s.key := by cases d <;> rfl
@[simp] theorem busError_din (d : Direction) (s : State) : (busError d s).din = s.din := by cases d <;> rfl
@[simp] theorem busError_dout (d : Direction) (s : State) : (busError d s).dout = s.dout := by cases d <;> rfl
@[simp] theorem busError_kv (d : Direction) (s : State) : (busError d s).kv = s.kv := by cases d <;> rfl
@[simp] theorem busError_err (d : Direction) (s : State) : (busError d s).err = s.err := by cases d <;> rfl
@[simp] theorem busError_nk (d : Direction) (s : State) : (busError d s).nk = s.nk := by cases d <;> rfl
@[simp] theorem busError_w (d : Direction) (s : State) : (busError d s).w = s.w := by cases d <;> rfl
@[simp] theorem busError_matrix (d : Direction) (s : State) : (busError d s).matrix = s.matrix := by cases d <;> rfl
@[simp] theorem busError_seq (d : Direction) (s : State) : (busError d s).seq = s.seq := by cases d <;> rfl
@[simp] theorem busError_port (d : Direction) (s : State) : (busError d s).port = s.port := by cases d <;> rfl
@[simp] theorem busError_freeCount (d : Direction) (s : State) : (busError d s).freeCount = s.freeCount := by cases d <;> rfl

@[simp] theorem busError_read_responses (s : State) :
    (busError .read s).responses = s.responses ++ [.readError 0x00000000#32] := rfl

@[simp] theorem busError_write_responses (v : Word) (s : State) :
    (busError (.write v) s).responses = s.responses ++ [.writeError] := rfl

end Sys2Proof.Machine
end

