-- ==== Sys2Proof/Laws/Ops.lean ====
section
/-!
SUPPORT. Laws of the shared operations: bytes in words and buffers, zero-extension, and what the bus
operations can answer.
-/

namespace Sys2Proof.Machine

theorem getLsbD_wordOfBytes (a0 a1 a2 a3 : Byte) (i : Nat) :
    (wordOfBytes a0 a1 a2 a3).getLsbD i =
      if i < 8 then a3.getLsbD i
      else if i < 16 then a2.getLsbD (i - 8)
      else if i < 24 then a1.getLsbD (i - 16)
      else a0.getLsbD (i - 24) := by
  show (a0 ++ (a1 ++ (a2 ++ a3)) : BitVec (8 + (8 + (8 + 8)))).getLsbD i = _
  rw [BitVec.getLsbD_append, BitVec.getLsbD_append, BitVec.getLsbD_append]
  split_ifs <;> first | rfl | omega

theorem getLsbD_byteOfWord (w : Word) (j : Fin 4) (i : Nat) :
    (byteOfWord w j).getLsbD i = (decide (i < 8) && w.getLsbD (24 - 8 * j.val + i)) := by
  simp [byteOfWord]

/-- Lane `j` of a word put together from four bytes is byte `j` (R15). -/
theorem byteOfWord_wordOfBytes (a0 a1 a2 a3 : Byte) (j : Fin 4) :
    byteOfWord (wordOfBytes a0 a1 a2 a3) j = #v[a0, a1, a2, a3][j] := by
  apply BitVec.eq_of_getLsbD_eq
  intro i hi
  rw [getLsbD_byteOfWord, getLsbD_wordOfBytes]
  match j with
  | 0 => simp [hi, show ¬ 24 + i < 8 by omega, show ¬ 24 + i < 16 by omega]
  | 1 => simp [hi, show ¬ 16 + i < 8 by omega, show 16 + i < 24 by omega]
  | 2 => simp [hi, show ¬ 8 + i < 8 by omega, show 8 + i < 16 by omega]
  | 3 => simp [hi]

/-- A word is put together from its own four lanes (R15). -/
theorem wordOfBytes_byteOfWord (w : Word) :
    wordOfBytes (byteOfWord w 0) (byteOfWord w 1) (byteOfWord w 2) (byteOfWord w 3) = w := by
  apply BitVec.eq_of_getLsbD_eq
  intro i hi
  simp only [getLsbD_wordOfBytes, getLsbD_byteOfWord]
  split_ifs with h1 h2 h3
  · simp [h1]
  · simp [show i - 8 < 8 by omega, show 8 + (i - 8) = i by omega]
  · simp [show i - 16 < 8 by omega, show 16 + (i - 16) = i by omega]
  · simp [show i - 24 < 8 by omega, show 24 + (i - 24) = i by omega]

theorem byteOfWord_xor (v w : Word) (j : Fin 4) :
    byteOfWord (v ^^^ w) j = byteOfWord v j ^^^ byteOfWord w j := by
  apply BitVec.eq_of_getLsbD_eq
  intro i hi
  simp only [BitVec.getLsbD_xor, getLsbD_byteOfWord, hi, decide_true, Bool.true_and]

/-- Lane `b` of word `j` of a buffer is its byte `4j+b` (R22, R47). -/
theorem byteOfWord_bufWord (b : Block) (j : Fin 8) (l : Fin 4) :
    byteOfWord (bufWord b j) l = b[4 * j.val + l.val] := by
  rw [bufWord, byteOfWord_wordOfBytes]
  match l with
  | 0 => rfl
  | 1 => rfl
  | 2 => rfl
  | 3 => rfl

/-- The bytes of a buffer after a write to its word `j` (R47). -/
theorem getElem_setBufWord (b : Block) (j : Fin 8) (v : Word) (i : Fin 32) :
    (setBufWord b j v)[i] =
      if i.val / 4 = j.val then byteOfWord v ⟨i.val % 4, Nat.mod_lt _ (by decide)⟩ else b[i] := by
  simp [setBufWord]

/-- A word written to a buffer is read back (R47). -/
theorem bufWord_setBufWord_same (b : Block) (j : Fin 8) (v : Word) :
    bufWord (setBufWord b j v) j = v := by
  have key : ∀ l : Fin 4, (setBufWord b j v)[4 * j.val + l.val] = byteOfWord v l := by
    intro l
    have h := getElem_setBufWord b j v ⟨4 * j.val + l.val, by omega⟩
    have h1 : (4 * j.val + l.val) / 4 = j.val := by omega
    have h2 : (4 * j.val + l.val) % 4 = l.val := by omega
    simpa [h1, h2] using h
  have h := wordOfBytes_byteOfWord v
  rw [← key 0, ← key 1, ← key 2, ← key 3] at h
  exact h

/-- A write to one word of a buffer leaves its other words (R45). -/
theorem bufWord_setBufWord_other (b : Block) (j k : Fin 8) (v : Word) (hjk : k ≠ j) :
    bufWord (setBufWord b j v) k = bufWord b k := by
  have key : ∀ l : Fin 4, (setBufWord b j v)[4 * k.val + l.val] = b[4 * k.val + l.val] := by
    intro l
    have h := getElem_setBufWord b j v ⟨4 * k.val + l.val, by omega⟩
    have h1 : (4 * k.val + l.val) / 4 ≠ j.val := by
      intro h; apply hjk; ext; omega
    simpa [h1] using h
  have k0 := key 0
  have k1 := key 1
  have k2 := key 2
  have k3 := key 3
  simp only [Fin.val_zero, Fin.val_one, Fin.val_two, Nat.add_zero] at k0 k1 k2
  change (setBufWord b j v)[4 * k.val + 3] = _ at k3
  simp only [bufWord, k0, k1, k2, k3]
  rfl

/-- Two buffers with the same eight words are equal (R22). -/
theorem block_ext_words (a b : Block) (h : ∀ j : Fin 8, bufWord a j = bufWord b j) : a = b := by
  apply Vector.ext
  intro i hi
  have h1 := congrArg (fun w => byteOfWord w ⟨i % 4, Nat.mod_lt _ (by decide)⟩) (h ⟨i / 4, by omega⟩)
  simp only [byteOfWord_bufWord] at h1
  have h2 : 4 * (i / 4) + i % 4 = i := by omega
  simpa [h2] using h1

/-- Byte `i` of a zero-extended source (R125). -/
theorem getElem_zeroExtend (len : Nat) (b : Block) (i : Fin 32) :
    (zeroExtend len b)[i] = if i.val < len then b[i] else 0#8 := by
  simp [zeroExtend]

/-- Zero-extension depends only on the first `len` bytes (R125). -/
theorem zeroExtend_congr (len : Nat) (a b : Block) (h : ∀ i : Fin 32, i.val < len → a[i] = b[i]) :
    zeroExtend len a = zeroExtend len b := by
  apply Vector.ext
  intro i hi
  have ha := getElem_zeroExtend len a ⟨i, hi⟩
  have hb := getElem_zeroExtend len b ⟨i, hi⟩
  have hi' := h ⟨i, hi⟩
  simp only [Fin.getElem_fin] at ha hb hi'
  rw [ha, hb]
  split_ifs with hl
  · exact hi' hl
  · rfl

/-- A 32-byte source is its own zero-extension (R125). -/
theorem zeroExtend_full (b : Block) : zeroExtend 32 b = b := by
  apply Vector.ext
  intro i hi
  have h := getElem_zeroExtend 32 b ⟨i, hi⟩
  simpa [hi] using h

/-- `raise Error(code)` is the write of `ERR` and nothing else (R137). -/
theorem raiseError_eq (c : ErrCode) (s : State) : raiseError c s = { s with err := c.bits } := rfl

/-- A write that is acknowledged was answered by a next state, and only the responses grew (R50). -/
theorem acknowledge_next_iff (r : Result) (t : State) :
    acknowledge r = .next t ↔ ∃ s, r = .next s ∧ t = respond .writeAck s := by
  cases r with
  | next s => simp [acknowledge, eq_comm]
  | fault e => cases e
  | refused e => simp [acknowledge]

end Sys2Proof.Machine
end

