-- ==== Sys2Proof/Laws/KeySchedule.lean ====
section
/-!
SUPPORT. Laws of the key schedule: what one step of the recurrence writes, that a run of steps obeys the
recurrence and keeps the words before it, and that it depends on nothing but those words.
-/

namespace Sys2Proof.Machine

theorem getElem_loadKeyWords (nk : Nat) (key : Block) (w : Schedule) (i : Nat) (hi : i < 120) :
    (loadKeyWords nk key w)[i] = if h : i < nk ∧ i < 8 then bufWord key ⟨i, h.2⟩ else w[i] := by
  simp [loadKeyWords]

/-- One step writes one word (R92). -/
theorem getElem_expandWord (nk i : Nat) (w : Schedule) (h0 : 0 < i) (hi : i < 120) (k : Nat) (hk : k < 120) :
    (expandWord nk i w)[k] =
      if k = i then w[i - nk]'(by omega) ^^^ scheduleTemp nk i (w[i - 1]'(by omega)) else w[k] := by
  simp only [expandWord, h0, hi, and_self, dite_true, Vector.getElem_set]
  split_ifs with h1 h2 h2 <;> first | rfl | omega

/-- A run of steps leaves the words before it. -/
theorem expandFrom_before (nk : Nat) (n : Nat) : ∀ (i : Nat) (w : Schedule), 0 < i → i + n ≤ 120 →
    ∀ (k : Nat) (hk : k < 120), k < i → (expandFrom nk n i w)[k] = w[k] := by
  induction n with
  | zero => intros; rfl
  | succ n ih =>
    intro i w h0 hn k hk hki
    rw [expandFrom, ih (i + 1) _ (by omega) (by omega) k hk (by omega),
      getElem_expandWord nk i w h0 (by omega) k hk, if_neg (by omega)]

/-- The words a run of steps makes obey the recurrence (R92). -/
theorem expandFrom_recurrence (nk : Nat) (hnk : 0 < nk) (n : Nat) : ∀ (i : Nat) (w : Schedule) (_ : 0 < i)
    (_ : i + n ≤ 120) (k : Nat) (_ : i ≤ k) (_ : k < i + n),
      (expandFrom nk n i w)[k]'(by omega) =
        (expandFrom nk n i w)[k - nk]'(by omega) ^^^
          scheduleTemp nk k ((expandFrom nk n i w)[k - 1]'(by omega)) := by
  induction n with
  | zero => intros; omega
  | succ n ih =>
    intro i w h0 hn k hik hk
    by_cases hki : k = i
    · subst hki
      have before := expandFrom_before nk n (k + 1) (expandWord nk k w) (by omega) (by omega)
      simp only [expandFrom]
      rw [before k (by omega) (by omega), before (k - nk) (by omega) (by omega),
        before (k - 1) (by omega) (by omega)]
      rw [getElem_expandWord nk k w h0 (by omega), getElem_expandWord nk k w h0 (by omega),
        getElem_expandWord nk k w h0 (by omega), if_pos rfl, if_neg (by omega), if_neg (by omega)]
    · exact ih (i + 1) (expandWord nk i w) (by omega) (by omega) k (by omega) (by omega)

/-- A run of steps depends only on the words before it (R94): what the later words held does not matter. -/
theorem expandFrom_congr (nk : Nat) (hnk : 0 < nk) (n : Nat) : ∀ (i : Nat) (w v : Schedule) (_ : 0 < i)
    (_ : i + n ≤ 120) (_ : ∀ (k : Nat) (hk : k < 120), k < i → w[k] = v[k]) (k : Nat) (_ : k < i + n),
      (expandFrom nk n i w)[k]'(by omega) = (expandFrom nk n i v)[k]'(by omega) := by
  induction n with
  | zero =>
    intro i w v h0 hn h k hk
    exact h k (by omega) (by omega)
  | succ n ih =>
    intro i w v h0 hn h k hk
    simp only [expandFrom]
    refine ih (i + 1) _ _ (by omega) (by omega) ?_ k (by omega)
    intro j hj hji
    rw [getElem_expandWord nk i w h0 (by omega), getElem_expandWord nk i v h0 (by omega)]
    split_ifs with hji'
    · rw [h (i - nk) (by omega) (by omega), h (i - 1) (by omega) (by omega)]
    · exact h j hj (by omega)

/-- The engine expands in place, over the previous schedule; the result is `Expand(Nk, K)` all the same (R94). -/
theorem expandFrom_loadKeyWords (nk : Nat) (h0 : 0 < nk) (h8 : nk ≤ 8) (key : Block) (w : Schedule) :
    expandFrom nk (120 - nk) nk (loadKeyWords nk key w) = expandKey nk key := by
  apply Vector.ext
  intro k hk
  rw [expandKey]
  refine expandFrom_congr nk h0 (120 - nk) nk _ _ h0 (by omega) ?_ k (by omega)
  intro j hj hjn
  rw [getElem_loadKeyWords, getElem_loadKeyWords, dif_pos ⟨hjn, by omega⟩, dif_pos ⟨hjn, by omega⟩]

end Sys2Proof.Machine
end

