-- ==== Sys2Proof/Laws/Gf.lean ====
section
/-!
SUPPORT. Laws of GF(2^8): `xtime` and `gmul` are linear, which reduces every law of a product to the eight
powers of two; and a law for all bytes follows from a law on those powers.
-/

namespace Sys2Proof.Machine

/-- A term added twice is no term: addition in GF(2^8) is its own inverse (R67). -/
theorem xor_cancel (a b : Byte) : a ^^^ (a ^^^ b) = b := by
  rw [← BitVec.xor_assoc]; simp

theorem xtime_eq (b : Byte) : xtime b = (b <<< 1) ^^^ (if b.getLsbD 7 then 0x1B#8 else 0x00#8) := by
  revert b; decide +kernel

theorem xtime_xor (a b : Byte) : xtime (a ^^^ b) = xtime a ^^^ xtime b := by
  simp only [xtime_eq, BitVec.shiftLeft_xor_distrib, BitVec.getLsbD_xor]
  cases a.getLsbD 7 <;> cases b.getLsbD 7 <;> simp <;> first | ac_rfl | (ac_nf; rw [xor_cancel])

theorem xtime_zero : xtime 0#8 = 0#8 := by decide

/-- The accumulator of the loop comes out as an added term. -/
theorem gmulLoop_acc (b : Byte) (n : Nat) : ∀ (i : Nat) (a p : Byte),
    gmulLoop b n i a p = p ^^^ gmulLoop b n i a 0#8 := by
  induction n with
  | zero => intro i a p; simp [gmulLoop]
  | succ n ih =>
    intro i a p
    simp only [gmulLoop]
    rw [ih]
    conv_rhs => rw [ih]
    split <;> simp [BitVec.xor_assoc]

theorem gmulLoop_xor_left (b : Byte) (n : Nat) : ∀ (i : Nat) (a a' p p' : Byte),
    gmulLoop b n i (a ^^^ a') (p ^^^ p') = gmulLoop b n i a p ^^^ gmulLoop b n i a' p' := by
  induction n with
  | zero => intros; rfl
  | succ n ih =>
    intro i a a' p p'
    simp only [gmulLoop]
    rw [xtime_xor, ← ih]
    congr 1
    split
    · ac_rfl
    · rfl

theorem gmulLoop_xor_right (b b' : Byte) (n : Nat) : ∀ (i : Nat) (a : Byte),
    gmulLoop (b ^^^ b') n i a 0#8 = gmulLoop b n i a 0#8 ^^^ gmulLoop b' n i a 0#8 := by
  induction n with
  | zero => intros; simp [gmulLoop]
  | succ n ih =>
    intro i a
    simp only [gmulLoop]
    rw [gmulLoop_acc, gmulLoop_acc b, gmulLoop_acc b', ih, BitVec.getLsbD_xor]
    cases b.getLsbD i <;> cases b'.getLsbD i <;> simp <;> first | ac_rfl | (ac_nf; rw [xor_cancel])

/-- `gmul` distributes over addition on the left (R70). -/
theorem gmul_xor_left (a a' b : Byte) : gmul (a ^^^ a') b = gmul a b ^^^ gmul a' b := by
  simpa [gmul] using gmulLoop_xor_left b 8 0 a a' 0#8 0#8

/-- `gmul` distributes over addition on the right (R70). -/
theorem gmul_xor_right (a b b' : Byte) : gmul a (b ^^^ b') = gmul a b ^^^ gmul a b' :=
  gmulLoop_xor_right b b' 8 0 a

theorem gmul_zero_left (b : Byte) : gmul 0#8 b = 0#8 := by
  have h := gmul_xor_left 0#8 0#8 b
  simpa using h

theorem gmul_zero_right (a : Byte) : gmul a 0#8 = 0#8 := by
  have h := gmul_xor_right a 0#8 0#8
  simpa using h

/-- An additive map that is zero on the powers of two is zero everywhere: a byte is the sum of its bits. -/
theorem additive_zero {f : Byte → Byte} (hadd : ∀ a b, f (a ^^^ b) = f a ^^^ f b)
    (h : ∀ k : Fin 8, f (1#8 <<< k.val) = 0#8) (a : Byte) : f a = 0#8 := by
  have h0 : f 0#8 = 0#8 := by have := hadd 0#8 0#8; simpa using this
  have bits : ∀ a : Byte, a =
      (if a.getLsbD 0 then 1#8 <<< 0 else 0#8) ^^^ ((if a.getLsbD 1 then 1#8 <<< 1 else 0#8) ^^^
      ((if a.getLsbD 2 then 1#8 <<< 2 else 0#8) ^^^ ((if a.getLsbD 3 then 1#8 <<< 3 else 0#8) ^^^
      ((if a.getLsbD 4 then 1#8 <<< 4 else 0#8) ^^^ ((if a.getLsbD 5 then 1#8 <<< 5 else 0#8) ^^^
      ((if a.getLsbD 6 then 1#8 <<< 6 else 0#8) ^^^ (if a.getLsbD 7 then 1#8 <<< 7 else 0#8))))))) := by
    decide +kernel
  have hbit : ∀ (k : Nat) (c : Bool), k < 8 → f (if c then 1#8 <<< k else 0#8) = 0#8 := by
    intro k c hk
    cases c
    · exact h0
    · exact h ⟨k, hk⟩
  rw [bits a]
  simp only [hadd]
  rw [hbit 0 _ (by omega), hbit 1 _ (by omega), hbit 2 _ (by omega), hbit 3 _ (by omega),
    hbit 4 _ (by omega), hbit 5 _ (by omega), hbit 6 _ (by omega), hbit 7 _ (by omega)]
  rfl

/-- Two additive maps that agree on the powers of two agree everywhere. -/
theorem additive_ext {f g : Byte → Byte} (hf : ∀ a b, f (a ^^^ b) = f a ^^^ f b)
    (hg : ∀ a b, g (a ^^^ b) = g a ^^^ g b) (h : ∀ k : Fin 8, f (1#8 <<< k.val) = g (1#8 <<< k.val))
    (a : Byte) : f a = g a := by
  have hz := additive_zero (f := fun x => f x ^^^ g x)
    (by intro a b; simp only [hf, hg]; ac_rfl) (by intro k; simp [h k]) a
  exact BitVec.xor_eq_zero_iff.mp hz

end Sys2Proof.Machine
end

