-- ==== Sys2Proof/Laws/Rounds.lean ====
section
/-!
SUPPORT. Entries of the matrix each round step makes, and the mapping between block and state. Later proofs
compare matrices entry by entry with `matrix_ext` and these lemmas, and never unfold a step.
-/

namespace Sys2Proof.Machine

theorem getElem_matrixOf (f : Fin 4 → Fin 8 → Byte) (r : Fin 4) (c : Fin 8) :
    (matrixOf f)[r][c] = f r c := by
  simp [matrixOf]

theorem matrix_ext {a b : StateMatrix} (h : ∀ (r : Fin 4) (c : Fin 8), a[r][c] = b[r][c]) : a = b := by
  apply Vector.ext
  intro r hr
  apply Vector.ext
  intro c hc
  exact h ⟨r, hr⟩ ⟨c, hc⟩

/-- Entry `(r, c)` of a loaded block is its byte `4c + r` (R100). -/
theorem getElem_load (b : Block) (r : Fin 4) (c : Fin 8) : (load b)[r][c] = b[4 * c.val + r.val] :=
  getElem_matrixOf _ r c

/-- Byte `i` of a stored state is its entry `(i mod 4, i div 4)` (R100). -/
theorem getElem_store (m : StateMatrix) (i : Nat) (hi : i < 32) :
    (store m)[i] = (m[i % 4]'(Nat.mod_lt _ (by decide)))[i / 4]'(by omega) := by
  simp [store]

theorem getElem_subBytes (m : StateMatrix) (r : Fin 4) (c : Fin 8) :
    (subBytes m)[r][c] = sbox m[r][c] := getElem_matrixOf _ r c

theorem getElem_invSubBytes (m : StateMatrix) (r : Fin 4) (c : Fin 8) :
    (invSubBytes m)[r][c] = invSbox m[r][c] := getElem_matrixOf _ r c

theorem getElem_shiftRows (m : StateMatrix) (r : Fin 4) (c : Fin 8) :
    (shiftRows m)[r][c] = m[r][c + shiftOf r] := getElem_matrixOf _ r c

theorem getElem_invShiftRows (m : StateMatrix) (r : Fin 4) (c : Fin 8) :
    (invShiftRows m)[r][c] = m[r][c - shiftOf r] := getElem_matrixOf _ r c

theorem getElem_roundKey (w : Schedule) (k : Fin 15) (r : Fin 4) (c : Fin 8) :
    (roundKey w k)[r][c] = byteOfWord w[8 * k.val + c.val] r := getElem_matrixOf _ r c

theorem getElem_addRoundKey (w : Schedule) (k : Fin 15) (m : StateMatrix) (r : Fin 4) (c : Fin 8) :
    (addRoundKey w k m)[r][c] = m[r][c] ^^^ (roundKey w k)[r][c] := getElem_matrixOf _ r c

/-- The four entries `MixColumns` makes of column `c` (R104). -/
theorem getElem_mixColumns (m : StateMatrix) (c : Fin 8) :
    (mixColumns m)[(0 : Fin 4)][c] = gmul 0x02 m[(0 : Fin 4)][c] ^^^ gmul 0x03 m[(1 : Fin 4)][c] ^^^ m[(2 : Fin 4)][c] ^^^ m[(3 : Fin 4)][c] ∧
    (mixColumns m)[(1 : Fin 4)][c] = m[(0 : Fin 4)][c] ^^^ gmul 0x02 m[(1 : Fin 4)][c] ^^^ gmul 0x03 m[(2 : Fin 4)][c] ^^^ m[(3 : Fin 4)][c] ∧
    (mixColumns m)[(2 : Fin 4)][c] = m[(0 : Fin 4)][c] ^^^ m[(1 : Fin 4)][c] ^^^ gmul 0x02 m[(2 : Fin 4)][c] ^^^ gmul 0x03 m[(3 : Fin 4)][c] ∧
    (mixColumns m)[(3 : Fin 4)][c] = gmul 0x03 m[(0 : Fin 4)][c] ^^^ m[(1 : Fin 4)][c] ^^^ m[(2 : Fin 4)][c] ^^^ gmul 0x02 m[(3 : Fin 4)][c] :=
  ⟨getElem_matrixOf _ 0 c, getElem_matrixOf _ 1 c, getElem_matrixOf _ 2 c, getElem_matrixOf _ 3 c⟩

/-- The four entries `InvMixColumns` makes of column `c` (R114). -/
theorem getElem_invMixColumns (m : StateMatrix) (c : Fin 8) :
    (invMixColumns m)[(0 : Fin 4)][c] = gmul 0x0E m[(0 : Fin 4)][c] ^^^ gmul 0x0B m[(1 : Fin 4)][c] ^^^ gmul 0x0D m[(2 : Fin 4)][c] ^^^ gmul 0x09 m[(3 : Fin 4)][c] ∧
    (invMixColumns m)[(1 : Fin 4)][c] = gmul 0x09 m[(0 : Fin 4)][c] ^^^ gmul 0x0E m[(1 : Fin 4)][c] ^^^ gmul 0x0B m[(2 : Fin 4)][c] ^^^ gmul 0x0D m[(3 : Fin 4)][c] ∧
    (invMixColumns m)[(2 : Fin 4)][c] = gmul 0x0D m[(0 : Fin 4)][c] ^^^ gmul 0x09 m[(1 : Fin 4)][c] ^^^ gmul 0x0E m[(2 : Fin 4)][c] ^^^ gmul 0x0B m[(3 : Fin 4)][c] ∧
    (invMixColumns m)[(3 : Fin 4)][c] = gmul 0x0B m[(0 : Fin 4)][c] ^^^ gmul 0x0D m[(1 : Fin 4)][c] ^^^ gmul 0x09 m[(2 : Fin 4)][c] ^^^ gmul 0x0E m[(3 : Fin 4)][c] :=
  ⟨getElem_matrixOf _ 0 c, getElem_matrixOf _ 1 c, getElem_matrixOf _ 2 c, getElem_matrixOf _ 3 c⟩

end Sys2Proof.Machine
end

