-- ==== Sys2Proof/Laws/Sequencer.lean ====
section
/-!
SUPPORT. Laws of the sequencer: what a tick leaves alone, and what the ticks of a whole command add up to: the
expansion, `Cipher` and `InvCipher` (R24, R92, R108, R116).
-/

namespace Sys2Proof.Machine

/-- What no tick changes: everything but `W`, `STATE` and the sequencer (R24). -/
theorem tick_frame (s : State) :
    (tick s).key = s.key ∧ (tick s).din = s.din ∧ (tick s).dout = s.dout ∧ (tick s).kv = s.kv ∧
    (tick s).err = s.err ∧ (tick s).nk = s.nk ∧ (tick s).port = s.port ∧
    (tick s).responses = s.responses ∧ (tick s).freeCount = s.freeCount := by
  unfold tick
  split <;> exact ⟨rfl, rfl, rfl, rfl, rfl, rfl, rfl, rfl, rfl⟩

theorem ticks_frame (n : Nat) : ∀ s : State,
    (ticks n s).key = s.key ∧ (ticks n s).din = s.din ∧ (ticks n s).dout = s.dout ∧ (ticks n s).kv = s.kv ∧
    (ticks n s).err = s.err ∧ (ticks n s).nk = s.nk ∧ (ticks n s).port = s.port ∧
    (ticks n s).responses = s.responses ∧ (ticks n s).freeCount = s.freeCount := by
  induction n with
  | zero => intro s; exact ⟨rfl, rfl, rfl, rfl, rfl, rfl, rfl, rfl, rfl⟩
  | succ n ih =>
    intro s
    obtain ⟨h1, h2, h3, h4, h5, h6, h7, h8, h9⟩ := ih (tick s)
    obtain ⟨g1, g2, g3, g4, g5, g6, g7, g8, g9⟩ := tick_frame s
    exact ⟨h1.trans g1, h2.trans g2, h3.trans g3, h4.trans g4, h5.trans g5, h6.trans g6, h7.trans g7,
      h8.trans g8, h9.trans g9⟩

/-- The ticks of a LOADKEY: the recurrence from word `i` to the last, `STATE` untouched, idle at the end. -/
theorem ticks_expand (nk : Nat) (n : Nat) : ∀ (i : Nat) (s : State), 0 < n → i + n = 120 → s.seq = .expand nk i →
    (ticks n s).w = expandFrom nk n i s.w ∧ (ticks n s).matrix = s.matrix ∧ (ticks n s).seq = .idle := by
  induction n with
  | zero => intro i s h; omega
  | succ n ih =>
    intro i s _ hi hs
    have ht : tick s = { s with w := expandWord nk i s.w, seq := s.seq.advance } := by
      unfold tick; rw [hs]
    rw [ticks, ht]
    by_cases hn : n = 0
    · subst hn
      simp only [ticks, expandFrom, hs, Sequencer.advance]
      rw [if_neg (by omega)]
      exact ⟨trivial, trivial, rfl⟩
    · have h := ih (i + 1) { s with w := expandWord nk i s.w, seq := s.seq.advance } (by omega) (by omega)
        (by simp only [hs, Sequencer.advance]; rw [if_pos (by omega)])
      exact h

/-- The ticks of an ENC: the steps of the list from `i` on, one after the other; `W` untouched, idle at the end. -/
theorem ticks_encrypt (n : Nat) : ∀ (i : Nat) (s : State), 0 < n → i + n = 56 → s.seq = .encrypt i →
    (ticks n s).matrix = (encSteps.drop i).foldl (fun m d => d.run s.w m) s.matrix ∧
      (ticks n s).w = s.w ∧ (ticks n s).seq = .idle := by
  have hlen : encSteps.length = 56 := by decide
  induction n with
  | zero => intro i s h; omega
  | succ n ih =>
    intro i s _ hi hs
    have hil : i < encSteps.length := by omega
    have ht : tick s = { s with matrix := (encSteps[i]).run s.w s.matrix, seq := s.seq.advance } := by
      unfold tick; rw [hs]; simp only [runStepAt, List.getElem?_eq_getElem hil]
    rw [ticks, ht, List.drop_eq_getElem_cons hil, List.foldl_cons]
    by_cases hn : n = 0
    · subst hn
      have hd : encSteps.drop (i + 1) = [] := List.drop_eq_nil_of_le (by omega)
      simp only [ticks, hd, List.foldl_nil, hs, Sequencer.advance]
      rw [if_neg (by omega)]
      exact ⟨trivial, trivial, rfl⟩
    · exact ih (i + 1) { s with matrix := (encSteps[i]).run s.w s.matrix, seq := s.seq.advance } (by omega)
        (by omega) (by simp only [hs, Sequencer.advance]; rw [if_pos (by omega)])

/-- The ticks of a DEC, likewise. -/
theorem ticks_decrypt (n : Nat) : ∀ (i : Nat) (s : State), 0 < n → i + n = 56 → s.seq = .decrypt i →
    (ticks n s).matrix = (decSteps.drop i).foldl (fun m d => d.run s.w m) s.matrix ∧
      (ticks n s).w = s.w ∧ (ticks n s).seq = .idle := by
  have hlen : decSteps.length = 56 := by decide
  induction n with
  | zero => intro i s h; omega
  | succ n ih =>
    intro i s _ hi hs
    have hil : i < decSteps.length := by omega
    have ht : tick s = { s with matrix := (decSteps[i]).run s.w s.matrix, seq := s.seq.advance } := by
      unfold tick; rw [hs]; simp only [runStepAt, List.getElem?_eq_getElem hil]
    rw [ticks, ht, List.drop_eq_getElem_cons hil, List.foldl_cons]
    by_cases hn : n = 0
    · subst hn
      have hd : decSteps.drop (i + 1) = [] := List.drop_eq_nil_of_le (by omega)
      simp only [ticks, hd, List.foldl_nil, hs, Sequencer.advance]
      rw [if_neg (by omega)]
      exact ⟨trivial, trivial, rfl⟩
    · exact ih (i + 1) { s with matrix := (decSteps[i]).run s.w s.matrix, seq := s.seq.advance } (by omega)
        (by omega) (by simp only [hs, Sequencer.advance]; rw [if_pos (by omega)])

/-- The steps of ENC, one after the other, are `Cipher` (R108). -/
theorem foldl_encSteps (w : Schedule) (b : Block) :
    store (encSteps.foldl (fun m d => d.run w m) (load b)) = cipher b w := by
  simp only [encSteps, List.foldl_append, List.foldl_flatMap, List.foldl_cons, List.foldl_nil,
    DatapathStep.run, cipher, finalRound, fullRound]

/-- The steps of DEC, one after the other, are `InvCipher` (R116). -/
theorem foldl_decSteps (w : Schedule) (b : Block) :
    store (decSteps.foldl (fun m d => d.run w m) (load b)) = invCipher b w := by
  simp only [decSteps, List.foldl_append, List.foldl_flatMap, List.foldl_cons, List.foldl_nil,
    DatapathStep.run, invCipher, invFirstRound, invRound]

end Sys2Proof.Machine
end

