-- ==== Sys2Proof/Laws/Exec.lean ====
section
/-!
SUPPORT. One law per meaning: everything the command can do, as an equation for its next state. Later proofs cite
these and never unfold a meaning or run the sequencer.
-/

namespace Sys2Proof.Machine

theorem keyLenOk_cases {len : Nat} (h : keyLenOk len = true) : len = 16 ∨ len = 24 ∨ len = 32 := by
  simpa [keyLenOk, or_assoc] using h

/-- A LOADKEY that is accepted (R121). -/
theorem execLoadkey_accepted {len : Nat} (s : State) (h : keyLenOk len = true) :
    execLoadkey len s = .next { s with
      w := expandKey (len / 4) s.key, kv := true, nk := BitVec.ofNat 4 (len / 4), err := 0#4, seq := .idle } := by
  have hl := keyLenOk_cases h
  have h4 : 0 < len / 4 ∧ len / 4 ≤ 8 := by omega
  obtain ⟨hw, hm, hq⟩ := ticks_expand (len / 4) (120 - len / 4) (len / 4) (beginExpand (len / 4) s)
    (by omega) (by omega) rfl
  rw [beginExpand_w, expandFrom_loadKeyWords _ h4.1 h4.2] at hw
  obtain ⟨f1, f2, f3, f4, f5, f6, f7, f8, f9⟩ := ticks_frame (120 - len / 4) (beginExpand (len / 4) s)
  rw [execLoadkey, if_pos h]
  generalize ticks (120 - len / 4) (beginExpand (len / 4) s) = t at *
  refine congrArg Host.Outcome.next (State.ext ?_ ?_ ?_ ?_ ?_ ?_ ?_ ?_ ?_ ?_ ?_ ?_) <;>
    simp [hw, hm, hq, f1, f2, f3, f7, f8, f9, ErrCode.bits]

/-- A LOADKEY that is rejected (R121, R122). -/
theorem execLoadkey_rejected {len : Nat} (s : State) (h : keyLenOk len = false) :
    execLoadkey len s = .next { s with kv := false, nk := 0#4, err := 1#4 } := by
  rw [execLoadkey, h]
  rfl

/-- ENC with no key loaded, whatever its length (R124, R140). -/
theorem execEnc_noKey {len : Nat} (s : State) (hk : s.kv = false) :
    execEnc len s = .next { s with err := 3#4 } := by
  rw [execEnc, if_pos hk]
  rfl

/-- ENC of an overlong source under a key (R126). -/
theorem execEnc_srcLen {len : Nat} (s : State) (hk : s.kv = true) (h : encLenOk len = false) :
    execEnc len s = .next { s with err := 2#4 } := by
  rw [execEnc, if_neg (by simp [hk]), h]
  rfl

/-- ENC that is accepted (R124). -/
theorem execEnc_accepted {len : Nat} (s : State) (hk : s.kv = true) (h : encLenOk len = true) :
    execEnc len s = .next { s with
      dout := cipher (zeroExtend len s.din) s.w, matrix := Config.freeMatrix s.freeCount,
      freeCount := s.freeCount + 1, err := 0#4, seq := .idle } := by
  obtain ⟨hm, hw, hq⟩ := ticks_encrypt 56 0 (beginEncrypt len s) (by omega) (by omega) rfl
  obtain ⟨f1, f2, f3, f4, f5, f6, f7, f8, f9⟩ := ticks_frame 56 (beginEncrypt len s)
  rw [List.drop_zero, beginEncrypt_w, beginEncrypt_matrix] at hm
  rw [execEnc, if_neg (by simp [hk]), if_pos h]
  generalize ticks 56 (beginEncrypt len s) = t at *
  refine congrArg Host.Outcome.next (State.ext ?_ ?_ ?_ ?_ ?_ ?_ ?_ ?_ ?_ ?_ ?_ ?_) <;>
    simp [hm, hw, hq, f1, f2, f4, f6, f7, f8, f9, ErrCode.bits, foldl_encSteps]

/-- DEC with no key loaded, whatever its length (R128, R140). -/
theorem execDec_noKey {len : Nat} (s : State) (hk : s.kv = false) :
    execDec len s = .next { s with err := 3#4 } := by
  rw [execDec, if_pos hk]
  rfl

/-- DEC of a source of another length than 32 under a key (R128). -/
theorem execDec_srcLen {len : Nat} (s : State) (hk : s.kv = true) (h : decLenOk len = false) :
    execDec len s = .next { s with err := 2#4 } := by
  rw [execDec, if_neg (by simp [hk]), h]
  rfl

/-- DEC that is accepted (R128). -/
theorem execDec_accepted {len : Nat} (s : State) (hk : s.kv = true) (h : decLenOk len = true) :
    execDec len s = .next { s with
      dout := invCipher s.din s.w, matrix := Config.freeMatrix s.freeCount,
      freeCount := s.freeCount + 1, err := 0#4, seq := .idle } := by
  obtain ⟨hm, hw, hq⟩ := ticks_decrypt 56 0 (beginDecrypt s) (by omega) (by omega) rfl
  obtain ⟨f1, f2, f3, f4, f5, f6, f7, f8, f9⟩ := ticks_frame 56 (beginDecrypt s)
  rw [List.drop_zero, beginDecrypt_w, beginDecrypt_matrix] at hm
  rw [execDec, if_neg (by simp [hk]), if_pos h]
  generalize ticks 56 (beginDecrypt s) = t at *
  refine congrArg Host.Outcome.next (State.ext ?_ ?_ ?_ ?_ ?_ ?_ ?_ ?_ ?_ ?_ ?_ ?_) <;>
    simp [hm, hw, hq, f1, f2, f4, f6, f7, f8, f9, ErrCode.bits, foldl_decSteps]

/-- An illegal word (R131). -/
theorem execBadCmd_eq (s : State) : execBadCmd s = .next { s with err := 4#4 } := rfl

/-- Every command answers one of these states: accepted, or rejected with the code that R140 ranks first. -/
theorem exec_cases (i : Instr) (s : State) :
    (∃ len, i = .loadkey len ∧ keyLenOk len = true ∧ exec i s = .next { s with
      w := expandKey (len / 4) s.key, kv := true, nk := BitVec.ofNat 4 (len / 4), err := 0#4, seq := .idle }) ∨
    (∃ len, i = .loadkey len ∧ keyLenOk len = false ∧
      exec i s = .next { s with kv := false, nk := 0#4, err := 1#4 }) ∨
    (∃ len, i = .enc len ∧ s.kv = true ∧ encLenOk len = true ∧ exec i s = .next { s with
      dout := cipher (zeroExtend len s.din) s.w, matrix := Config.freeMatrix s.freeCount,
      freeCount := s.freeCount + 1, err := 0#4, seq := .idle }) ∨
    (∃ len, i = .dec len ∧ s.kv = true ∧ decLenOk len = true ∧ exec i s = .next { s with
      dout := invCipher s.din s.w, matrix := Config.freeMatrix s.freeCount,
      freeCount := s.freeCount + 1, err := 0#4, seq := .idle }) ∨
    ((∃ len, i = .enc len ∨ i = .dec len) ∧ s.kv = false ∧ exec i s = .next { s with err := 3#4 }) ∨
    ((∃ len, (i = .enc len ∧ encLenOk len = false) ∨ (i = .dec len ∧ decLenOk len = false)) ∧ s.kv = true ∧
      exec i s = .next { s with err := 2#4 }) := by
  cases i with
  | loadkey len =>
    cases h : keyLenOk len
    · exact .inr (.inl ⟨len, rfl, h, execLoadkey_rejected s h⟩)
    · exact .inl ⟨len, rfl, h, execLoadkey_accepted s h⟩
  | enc len =>
    rcases Bool.eq_false_or_eq_true s.kv with hk | hk
    · rcases Bool.eq_false_or_eq_true (encLenOk len) with h | h
      · exact .inr (.inr (.inl ⟨len, rfl, hk, h, execEnc_accepted s hk h⟩))
      · exact .inr (.inr (.inr (.inr (.inr ⟨⟨len, .inl ⟨rfl, h⟩⟩, hk, execEnc_srcLen s hk h⟩))))
    · exact .inr (.inr (.inr (.inr (.inl ⟨⟨len, .inl rfl⟩, hk, execEnc_noKey s hk⟩))))
  | dec len =>
    rcases Bool.eq_false_or_eq_true s.kv with hk | hk
    · rcases Bool.eq_false_or_eq_true (decLenOk len) with h | h
      · exact .inr (.inr (.inr (.inl ⟨len, rfl, hk, h, execDec_accepted s hk h⟩)))
      · exact .inr (.inr (.inr (.inr (.inr ⟨⟨len, .inr ⟨rfl, h⟩⟩, hk, execDec_srcLen s hk h⟩))))
    · exact .inr (.inr (.inr (.inr (.inl ⟨⟨len, .inr rfl⟩, hk, execDec_noKey s hk⟩))))

end Sys2Proof.Machine
end

