-- ==== Sys2Proof/Laws/Host.lean ====
section
/-!
SUPPORT. Laws of whole-buffer traffic: eight word writes fill a buffer (R47, R65), so the copy of `DOUT` to `DIN` is
one record update (R130).
-/

namespace Sys2Proof.Machine

/-- Eight writes of a buffer's words put that buffer there (R47). -/
theorem setBufWord_all (b c : Block) :
    (List.finRange 8).foldl (fun t j => setBufWord t j (bufWord c j)) b = c := by
  apply block_ext_words
  intro j
  simp only [List.finRange, List.ofFn, Fin.foldr, Fin.foldr.loop, List.foldl]
  match j with
  | 0 => simp [bufWord_setBufWord_same, bufWord_setBufWord_other]
  | 1 => simp [bufWord_setBufWord_same, bufWord_setBufWord_other]
  | 2 => simp [bufWord_setBufWord_same, bufWord_setBufWord_other]
  | 3 => simp [bufWord_setBufWord_same, bufWord_setBufWord_other]
  | 4 => simp [bufWord_setBufWord_same, bufWord_setBufWord_other]
  | 5 => simp [bufWord_setBufWord_same, bufWord_setBufWord_other]
  | 6 => simp [bufWord_setBufWord_same, bufWord_setBufWord_other]
  | 7 => simp [bufWord_setBufWord_same]

theorem foldl_writeDinWord (l : List (Fin 8)) (f : Fin 8 → Word) (s : State) :
    l.foldl (fun t j => writeDinWord j (f j) t) s =
      { s with din := l.foldl (fun b j => setBufWord b j (f j)) s.din } := by
  induction l generalizing s with
  | nil => rfl
  | cons j l ih => rw [List.foldl_cons, ih, List.foldl_cons]; simp only [writeDinWord]

theorem foldl_writeKeyWord (l : List (Fin 8)) (f : Fin 8 → Word) (s : State) :
    l.foldl (fun t j => writeKeyWord j (f j) t) s =
      { s with key := l.foldl (fun b j => setBufWord b j (f j)) s.key } := by
  induction l generalizing s with
  | nil => rfl
  | cons j l ih => rw [List.foldl_cons, ih, List.foldl_cons]; simp only [writeKeyWord]

theorem copyDoutToDin_eq (s : State) : copyDoutToDin s = { s with din := s.dout } := by
  rw [copyDoutToDin, foldl_writeDinWord, setBufWord_all]

end Sys2Proof.Machine
end

