-- ==== Sys2Proof/Laws/PerInstr.lean ====
section
/-!
SUPPORT. A family of laws per command, about the command as syntax: the word of every command has zeros in both
reserved fields and its own opcode, whatever its operand (R55, R56, R61).
-/

namespace Sys2Proof.Laws.WordFields

/-- The fields of a command's word (R55, R56). -/
def Statement (i : Instr) : Prop :=
  fieldRsv1 (encode i) = 0#16 ∧ fieldRsv0 (encode i) = 0#4 ∧ fieldOp (encode i) = i.op ∧
    fieldLen (encode i) = BitVec.ofNat 8 i.len

/-- The four fields of a word put together from them. -/
theorem fields_of_append (l : BitVec 8) (o : BitVec 4) :
    fieldRsv1 (0#16 ++ (l ++ (0#4 ++ o))) = 0#16 ∧ fieldRsv0 (0#16 ++ (l ++ (0#4 ++ o))) = 0#4 ∧
      fieldOp (0#16 ++ (l ++ (0#4 ++ o))) = o ∧ fieldLen (0#16 ++ (l ++ (0#4 ++ o))) = l := by
  revert l o
  decide +kernel

theorem loadkey (len : Nat) : Statement (.loadkey len) := fields_of_append _ _

theorem enc (len : Nat) : Statement (.enc len) := fields_of_append _ _

theorem dec (len : Nat) : Statement (.dec len) := fields_of_append _ _

end Sys2Proof.Laws.WordFields
end

