-- ==== Sys2Proof/Laws/Step.lean ====
section
/-!
SUPPORT. One inversion law for the step: everything one event at the port can do. Every invariant and every
"only this event writes that register" claim is a case analysis over `step_cases` and `exec_cases`.
-/

namespace Sys2Proof.Machine

theorem accessReg_eq_some {a : Access} {r : Reg} :
    accessReg a = some r ↔ a.size = 4 ∧ regAt a.off = some r ∧ r.allows a.dir = true := by
  unfold accessReg
  split_ifs with h
  · simp [h]
  · simp [h]

/-- A readable register has a word to read (R42). -/
theorem readReg_of_readable (s : State) {r : Reg} (h : r.readable = true) : ∃ v, readReg s r = some v := by
  cases r with
  | cmd => cases h
  | status => exact ⟨_, rfl⟩
  | keyW j => cases h
  | dinW j => exact ⟨_, rfl⟩
  | doutW j => exact ⟨_, rfl⟩

/-- A command in progress has changed neither the port nor the count of free values. -/
theorem inProgress_frame (v : Word) (k : Nat) (s : State) :
    (inProgress v k s).port = s.port ∧ (inProgress v k s).responses = s.responses ∧
      (inProgress v k s).freeCount = s.freeCount := by
  unfold inProgress
  cases decode v with
  | error e => exact ⟨rfl, rfl, rfl⟩
  | ok i =>
    dsimp only
    split
    · obtain ⟨-, -, -, -, -, -, h7, h8, h9⟩ := ticks_frame k (beginCommand i s)
      rw [h7, h8, h9]
      cases i <;> simp [beginCommand]
    · exact ⟨rfl, rfl, rfl⟩

/-- Whatever a command had done, a reset leaves what it leaves of an idle block (R152). That `W` and `STATE` agree too
is the model's: both resets take the free value of one count (notes/assumptions/4.md and 5.md). -/
theorem resetBlock_inProgress (v : Word) (k : Nat) (s : State) :
    resetBlock (inProgress v k s) = resetBlock s := by
  obtain ⟨h1, h2, h3⟩ := inProgress_frame v k s
  refine State.ext ?_ ?_ ?_ ?_ ?_ ?_ ?_ ?_ ?_ ?_ ?_ ?_ <;> simp [h1, h2, h3]

/-- What one event does. -/
theorem performEvent_cases (e : PortEvent) (s : State) :
    (∃ a, e = .access a ∧ accessReg a = none ∧ performEvent e s = .next (busError a.dir s)) ∨
    (∃ a r v, e = .access a ∧ a.dir = .read ∧ accessReg a = some r ∧ readReg s r = some v ∧
      performEvent e s = .next (respond (.readData v) s)) ∨
    (∃ a j v, e = .access a ∧ a.dir = .write v ∧ accessReg a = some (.keyW j) ∧
      performEvent e s = .next (respond .writeAck (writeKeyWord j v s))) ∨
    (∃ a j v, e = .access a ∧ a.dir = .write v ∧ accessReg a = some (.dinW j) ∧
      performEvent e s = .next (respond .writeAck (writeDinWord j v s))) ∨
    (∃ a v i, e = .access a ∧ a.dir = .write v ∧ accessReg a = some .cmd ∧ decode v = .ok i ∧
      performEvent e s = acknowledge (exec i s)) ∨
    (∃ a v b, e = .access a ∧ a.dir = .write v ∧ accessReg a = some .cmd ∧ decode v = .error b ∧
      performEvent e s = .next (respond .writeAck { s with err := 4#4 })) ∨
    (e = .reset ∧ performEvent e s = .next (resetBlock s)) ∨
    (∃ v k, e = .resetDuring v k ∧ performEvent e s = .next (resetBlock s)) := by
  cases e with
  | reset => exact .inr (.inr (.inr (.inr (.inr (.inr (.inl ⟨rfl, rfl⟩))))))
  | resetDuring v k =>
    refine .inr (.inr (.inr (.inr (.inr (.inr (.inr ⟨v, k, rfl, ?_⟩))))))
    rw [performEvent, resetBlock_inProgress]
  | access a =>
    rcases hr : accessReg a with _ | r
    · refine .inl ⟨a, rfl, hr, ?_⟩
      simp only [performEvent, performAccess, hr]
    · obtain ⟨-, -, hallow⟩ := accessReg_eq_some.mp hr
      rcases hd : a.dir with _ | v
      · rw [hd] at hallow
        obtain ⟨v, hv⟩ := readReg_of_readable s hallow
        refine .inr (.inl ⟨a, r, v, rfl, hd, hr, hv, ?_⟩)
        simp only [performEvent, performAccess, hr, hd, performRead, hv]
      · rw [hd] at hallow
        cases r with
        | status => cases hallow
        | doutW j => cases hallow
        | keyW j =>
          refine .inr (.inr (.inl ⟨a, j, v, rfl, hd, hr, ?_⟩))
          simp only [performEvent, performAccess, hr, hd, performWrite]
        | dinW j =>
          refine .inr (.inr (.inr (.inl ⟨a, j, v, rfl, hd, hr, ?_⟩)))
          simp only [performEvent, performAccess, hr, hd, performWrite]
        | cmd =>
          rcases hv : decode v with b | i
          · refine .inr (.inr (.inr (.inr (.inr (.inl ⟨a, v, b, rfl, hd, hr, hv, ?_⟩)))))
            simp only [performEvent, performAccess, hr, hd, performWrite, runCommand, hv, execBadCmd_eq,
              acknowledge]
          · refine .inr (.inr (.inr (.inr (.inl ⟨a, v, i, rfl, hd, hr, hv, ?_⟩))))
            simp only [performEvent, performAccess, hr, hd, performWrite, runCommand, hv]

theorem step_idle {s : State} (h : s.port = []) : step s = .next s := by
  simp only [step, h]

theorem step_event {s : State} {e : PortEvent} {rest : List PortEvent} (h : s.port = e :: rest) :
    step s = performEvent e { s with port := rest } := by
  simp only [step, h]

/-- A write of `v` to `CMD` reaches the command register, whatever `v` is (R138). -/
theorem accessReg_cmdWrite (v : Word) : accessReg (cmdWrite v) = some .cmd :=
  accessReg_eq_some.mpr ⟨rfl, by show regAt 0x00#7 = some .cmd; decide, rfl⟩

end Sys2Proof.Machine
end

