-- ==== Sys2Proof/Tests/Slice0.lean ====
section
/-!
SUPPORT. The model's own tests. The first half are checks of the work: every expected value is the spec's, from the
section each group names. The second half are witnesses: for each obligation with hypotheses, concrete states and
operands that meet them.
-/

namespace Sys2Proof.Tests

open Sys2Proof.Machine

/-- The answer is a next state with a property. -/
def nextHas (r : Result) (p : State → Bool) : Bool :=
  match r with
  | .next t => p t
  | .fault _ => false
  | .refused _ => false

/-- A block from its eight words, byte 0 first. -/
def blockOf (ws : Vector Word 8) : Block :=
  Vector.ofFn fun i : Fin 32 => byteOfWord ws[i.val / 4] ⟨i.val % 4, Nat.mod_lt _ (by decide)⟩

/-- The eight words of a block. -/
def wordsOf (b : Block) : Vector Word 8 := Vector.ofFn fun j => bufWord b j

/-- "1234567890123456", zero-padded. -/
def key16 : Block := blockOf #v[0x31323334, 0x35363738, 0x39303132, 0x33343536, 0, 0, 0, 0]

/-- "123456789012345678901234", zero-padded. -/
def key24 : Block := blockOf #v[0x31323334, 0x35363738, 0x39303132, 0x33343536, 0x37383930, 0x31323334, 0, 0]

/-- "123", zero-extended. -/
def text123 : Block := blockOf #v[0x31323300, 0, 0, 0, 0, 0, 0, 0]

/-- The ciphertext of vector 1. -/
def cipher123 : Block :=
  blockOf #v[0x3DDD1DC1, 0x923012F8, 0x3179D459, 0x371068A6, 0xF0D6835C, 0x5B2EB030, 0xA21ED103, 0xF8B5316D]

/-- `INC`: the block 00 01 02 … 1F. -/
def inc : Block := Vector.ofFn fun i : Fin 32 => BitVec.ofNat 8 i.val

/-- The state after LOADKEY 16 of `key16` from reset. -/
def keyed : State := { State.reset with key := key16, kv := true, nk := 4#4, w := expandKey 4 key16 }

/-- A state with one event at its port. -/
def withEvent (e : PortEvent) (s : State) : State := { s with port := [e] }

/-- A state with one command word at its port. -/
def withCmd (v : Word) (s : State) : State := withEvent (.access (cmdWrite v)) s

/-! ## WellFormed: the check refuses an operand that has no encoding (R57) -/

theorem test_wf_refuses_long_lengths :
    Instr.wf (.loadkey 256) = false ∧ Instr.wf (.enc 256) = false ∧ Instr.wf (.dec 1000) = false := by decide

theorem test_wf_takes_every_byte :
    Instr.wf (.loadkey 0) = true ∧ Instr.wf (.enc 255) = true ∧ Instr.wf (.dec 255) = true := by decide

/-! ## Decoding: words written bit by bit from R55 and R56, and the opcode table's bit numbers -/

theorem test_decode_loadkey : decode 0b0000000000000000_00011000_0000_0001#32 = .ok (.loadkey 24) := by decide

theorem test_decode_enc : decode 0b0000000000000000_11111111_0000_0010#32 = .ok (.enc 255) := by decide

theorem test_decode_dec : decode 0b0000000000000000_00100000_0000_0011#32 = .ok (.dec 32) := by decide

theorem test_decode_refuses_by_name :
    decode 0b0000000000000001_00010000_0000_0001#32 = .error .rsv1 ∧
    decode 0b1000000000000000_00010000_0000_0001#32 = .error .rsv1 ∧
    decode 0b0000000000000000_00010000_1000_0001#32 = .error .rsv0 ∧
    decode 0b0000000000000000_00010000_0000_0000#32 = .error .opcode ∧
    decode 0b0000000000000000_00010000_0000_1111#32 = .error .opcode := by decide

theorem test_decodeTableWord :
    decodeTableWord 32 0x00002001 = some (.loadkey 32) ∧ decodeTableWord 32 0x00000302 = some (.enc 3) ∧
    decodeTableWord 16 0x2003 = some (.dec 32) ∧ decodeTableWord 32 0x00010302 = none ∧
    decodeTableWord 64 0x100002003 = none := by decide

theorem test_encode :
    encode (.loadkey 33) = 0x00002101#32 ∧ encode (.enc 8) = 0x00000802#32 ∧ encode (.dec 32) = 0x00002003#32 := by
  decide

/-! ## Arithmetic and tables (95_test_vectors.md sections 2 and 3) -/

theorem test_gmul :
    gmul 0x57 0x83 = 0xC1 ∧ gmul 0xFF 0xFF = 0x13 ∧ gmul 0x80 0x80 = 0x9A ∧ gmul 0x1B 0x1B = 0x5E := by
  decide +kernel

theorem test_ginv : ginv 0x02 = 0x8D ∧ ginv 0xFF = 0x1C ∧ ginv 0x00 = 0x00 := by decide +kernel

theorem test_sboxes :
    sbox 0x00 = 0x63 ∧ sbox 0x10 = 0xCA ∧ sbox 0xFF = 0x16 ∧ invSbox 0x52 = 0x48 ∧ invSbox 0xFF = 0x7D := by
  decide +kernel

theorem test_words :
    subWord 0x34353633 = 0x189605C3 ∧ rotWord 0x33343536 = 0x34353633 ∧ rcon 1 = 0x01000000 ∧
    rcon 14 = 0x4D000000 ∧ rcon 29 = 0xC5000000 := by decide +kernel

/-! ## Single steps (95_test_vectors.md section 5) -/

theorem test_subBytes_inc : wordsOf (store (subBytes (load inc))) =
    #v[0x637C777B, 0xF26B6FC5, 0x3001672B, 0xFED7AB76, 0xCA82C97D, 0xFA5947F0, 0xADD4A2AF, 0x9CA472C0] := by
  decide +kernel

theorem test_invSubBytes_inc : wordsOf (store (invSubBytes (load inc))) =
    #v[0x52096AD5, 0x3036A538, 0xBF40A39E, 0x81F3D7FB, 0x7CE33982, 0x9B2FFF87, 0x348E4344, 0xC4DEE9CB] := by
  decide +kernel

theorem test_shiftRows_inc : wordsOf (store (shiftRows (load inc))) =
    #v[0x00050E13, 0x04091217, 0x080D161B, 0x0C111A1F, 0x10151E03, 0x14190207, 0x181D060B, 0x1C010A0F] := by
  decide +kernel

theorem test_invShiftRows_inc : wordsOf (store (invShiftRows (load inc))) =
    #v[0x001D1613, 0x04011A17, 0x08051E1B, 0x0C09021F, 0x100D0603, 0x14110A07, 0x18150E0B, 0x1C19120F] := by
  decide +kernel

theorem test_mixColumns_inc : wordsOf (store (mixColumns (load inc))) =
    #v[0x02070005, 0x06030401, 0x0A0F080D, 0x0E0B0C09, 0x12171015, 0x16131411, 0x1A1F181D, 0x1E1B1C19] := by
  decide +kernel

theorem test_invMixColumns_inc : wordsOf (store (invMixColumns (load inc))) =
    #v[0x0A0F080D, 0x0E0B0C09, 0x02070005, 0x06030401, 0x1A1F181D, 0x1E1B1C19, 0x12171015, 0x16131411] := by
  decide +kernel

theorem test_addRoundKey_inc : wordsOf (store (addRoundKey (expandKey 4 key16) 14 (load inc))) =
    #v[0xB4950AD7, 0x1D2C8256, 0xF5D30767, 0x94CAE3F9, 0xA7D05881, 0xBAFDD8D4, 0x4B2BD9B4, 0xD7E83046] := by
  decide +kernel

/-! ## Commands (95_test_vectors.md sections 1, 4 and 8) -/

/-- Row 2 of section 8, and the word of section 4 that the second branch decides (90_conflicts.md C1). -/
theorem test_loadkey_24 :
    nextHas (exec (.loadkey 24) { State.reset with key := key24 }) (fun t =>
      statusWord t == 0x00000601#32 && t.w[10] == 0x461694BA#32 && t.w[119] == 0x6989BC77#32) = true := by
  decide +kernel

/-- Row 9 of section 8. -/
theorem test_loadkey_33_after_a_good_key :
    nextHas (exec (.loadkey 33) keyed) (fun t => statusWord t == 0x00000010#32) = true := by decide +kernel

/-- Row 11 of section 8: vector 1, with AA in the bytes that are not read. -/
theorem test_enc_vector1 :
    nextHas (exec (.enc 3) { keyed with din := blockOf #v[0x313233AA, 0xAAAAAAAA, 0xAAAAAAAA, 0xAAAAAAAA,
      0xAAAAAAAA, 0xAAAAAAAA, 0xAAAAAAAA, 0xAAAAAAAA] }) (fun t =>
      statusWord t == 0x00000401#32 && t.dout == cipher123) = true := by decide +kernel

/-- Rows 19 and 22 of section 8. -/
theorem test_enc_33 :
    nextHas (exec (.enc 33) keyed) (fun t => statusWord t == 0x00000421#32) = true ∧
    nextHas (exec (.enc 33) State.reset) (fun t => statusWord t == 0x00000030#32) = true := by decide +kernel

/-- Row 23 of section 8. -/
theorem test_dec_vector1 :
    nextHas (exec (.dec 32) { keyed with din := cipher123 }) (fun t =>
      statusWord t == 0x00000401#32 && t.dout == text123) = true := by decide +kernel

/-- Rows 26 and 29 of section 8. -/
theorem test_dec_errors :
    nextHas (exec (.dec 31) keyed) (fun t => statusWord t == 0x00000421#32) = true ∧
    nextHas (exec (.dec 32) State.reset) (fun t => statusWord t == 0x00000030#32) = true := by decide +kernel

/-- Row 34 of section 8. -/
theorem test_badcmd :
    nextHas (step (withCmd 0x00010302 keyed)) (fun t => statusWord t == 0x00000441#32) = true := by decide +kernel

/-- Row 7 of section 8, with the word placed as the next command. -/
theorem test_withFetchWord :
    nextHas (step (State.reset.withFetchWord 32 0x00002101)) (fun t =>
      statusWord t == 0x00000010#32 && t.responses == [.writeAck] && t.port == []) = true := by decide

/-! ## The bus (95_test_vectors.md section 8, bus-level vectors) -/

theorem test_reads_that_are_bus_errors :
    nextHas (step (withEvent (.access (readAt 0x00)) State.reset)) (fun t => t.responses == [.readError 0]) = true ∧
    nextHas (step (withEvent (.access (readAt 0x20)) State.reset)) (fun t => t.responses == [.readError 0]) = true ∧
    nextHas (step (withEvent (.access (readAt 0x42)) State.reset)) (fun t => t.responses == [.readError 0]) = true ∧
    nextHas (step (withEvent (.access ⟨0x40, 2, .read⟩) State.reset)) (fun t => t.responses == [.readError 0]) = true := by
  decide +kernel

theorem test_writes_that_are_bus_errors :
    nextHas (step (withEvent (.access (writeAt 0x04 0x00000001)) State.reset)) (fun t =>
      t.responses == [.writeError] && statusWord t == 0) = true ∧
    nextHas (step (withEvent (.access (writeAt 0x1C 0x12345678)) State.reset)) (fun t =>
      t.responses == [.writeError]) = true ∧
    nextHas (step (withEvent (.access (writeAt 0x60 0x12345678)) State.reset)) (fun t =>
      t.responses == [.writeError] && t.dout == State.reset.dout) = true := by decide +kernel

theorem test_din_lanes :
    nextHas (step (withEvent (.access (writeAt 0x5C 0xA1B2C3D4)) State.reset)) (fun t =>
      t.din[28] == 0xA1 && t.din[29] == 0xB2 && t.din[30] == 0xC3 && t.din[31] == 0xD4 && t.din[27] == 0 &&
        t.responses == [.writeAck]) = true := by decide +kernel

/-! ## Host notation (30_encoding.md R63 to R65; 95_test_vectors.md section 9, program P1) -/

theorem test_readLine :
    readLine "WR 0x40, 0x31323300 ; lanes".toList = some (.wr 0x40 0x31323300) ∧
    readLine "RD 0x04".toList = some (.rd 0x04) ∧
    readLine "LOADKEY 16".toList = some (.loadkey 16) ∧
    readLine "SETDIN \"123\"".toList = some (.setdin [0x31, 0x32, 0x33]) ∧
    readLine "SETKEY hex:3DDD".toList = some (.setkey [0x3D, 0xDD]) ∧
    readLine "GETDOUT".toList = some .getdout := by decide +kernel

/-- Every digit of R63 and R64 has its value, small letters have theirs, and no other character has one. -/
theorem test_digits :
    hexadecimals.map hexDigit = (List.range 16).map some ∧ smallHexadecimals.map hexDigit = (List.range 16).map some ∧
    decimals.map decDigit = (List.range 10).map some ∧ decDigit 'A' = none ∧ hexDigit 'G' = none ∧
    hexDigit '/' = none ∧ hexDigit ':' = none := by decide +kernel

theorem test_p1_lines :
    (AsmLine.setdin [0x31, 0x32, 0x33]).expand =
      [writeAt 0x40 0x31323300, writeAt 0x44 0, writeAt 0x48 0, writeAt 0x4C 0,
        writeAt 0x50 0, writeAt 0x54 0, writeAt 0x58 0, writeAt 0x5C 0] ∧
    (AsmLine.loadkey 16).expand = [writeAt 0x00 0x00001001] ∧ AsmLine.getstatus.expand = [readAt 0x04] ∧
    (assemble [.setkey (List.replicate 33 0)]).isNone = true := by decide +kernel

/-! ## Witnesses: the hypotheses of each obligation, met together -/

theorem witness_DecodeOfEncodeIsTheCommand :
    Instr.wf (.loadkey 0) = true ∧ Instr.wf (.enc 255) = true ∧ Instr.wf (.dec 255) = true := by decide

theorem witness_EncodeOfDecodeIsTheWord :
    decode 0x00000001#32 = .ok (.loadkey 0) ∧ decode 0x0000FF03#32 = .ok (.dec 255) := by decide

/-- One word for each clause, at the ends of the clause's range. -/
theorem witness_DecodeFollowsTheFields :
    (0x00010001#32).toNat / 2 ^ 16 ≠ 0 ∧ (0x00000011#32).toNat / 2 ^ 4 % 2 ^ 4 ≠ 0 ∧
    (0x0000FF01#32).toNat / 2 ^ 16 = 0 ∧ (0x0000FF01#32).toNat / 2 ^ 4 % 2 ^ 4 = 0 ∧
    (0x0000FF01#32).toNat % 2 ^ 4 = 1 ∧ (0x00000002#32).toNat % 2 ^ 4 = 2 ∧ (0x0000FF03#32).toNat % 2 ^ 4 = 3 ∧
    (0x00000000#32).toNat % 2 ^ 4 = 0 ∧ 4 ≤ (0x00000004#32).toNat % 2 ^ 4 ∧ 4 ≤ (0x0000000F#32).toNat % 2 ^ 4 := by
  decide

theorem witness_StepRunsTheCommandWritten :
    (withCmd 0x00001001 State.reset).port = .access (cmdWrite 0x00001001) :: [] ∧
      decode 0x00001001#32 = .ok (.loadkey 16) := ⟨rfl, by decide⟩

theorem witness_PlacedWordRunsNext :
    decodeTableWord 32 0x00002003 = some (.dec 32) ∧ decodeTableWord 16 0x0002 = some (.enc 0) := by decide

theorem witness_IdleBlockHoldsItsState : State.reset.port = [] := rfl

theorem witness_IllegalWordOnlySetsErr :
    (withCmd 0x00010302 keyed).port = .access (cmdWrite 0x00010302) :: [] ∧ (0x00010302#32).toNat / 2 ^ 16 ≠ 0 ∧
    (withCmd 0x00000312 keyed).port = .access (cmdWrite 0x00000312) :: [] ∧
      (0x00000312#32).toNat / 2 ^ 4 % 2 ^ 4 ≠ 0 ∧
    (withCmd 0x00000000 keyed).port = .access (cmdWrite 0x00000000) :: [] ∧ (0x00000000#32).toNat % 2 ^ 4 = 0 ∧
    (withCmd 0x00000004 keyed).port = .access (cmdWrite 0x00000004) :: [] ∧ 4 ≤ (0x00000004#32).toNat % 2 ^ 4 ∧
    decode 0x00000004#32 = .error .opcode :=
  ⟨rfl, by decide, rfl, by decide, rfl, by decide, rfl, by decide, by decide⟩

/-- The lengths LOADKEY accepts, for `LoadkeyLoadsTheSchedule`, `ScheduleDependsOnTheKeyAlone` and `HostRoundTrip`. -/
theorem witness_legal_key_lengths :
    keyLenOk 16 = true ∧ keyLenOk 24 = true ∧ keyLenOk 32 = true ∧
      ∀ len, keyLenOk len = true → len = 16 ∨ len = 24 ∨ len = 32 :=
  ⟨rfl, rfl, rfl, fun _ h => keyLenOk_cases h⟩

theorem witness_LoadkeyLoadsTheSchedule :
    ((16 : Nat) = 16 ∨ (16 : Nat) = 24 ∨ (16 : Nat) = 32) ∧ ((32 : Nat) = 16 ∨ (32 : Nat) = 24 ∨ (32 : Nat) = 32) := by
  decide

/-- Rejected lengths beside the legal ones; and an event that loads no key where none is loaded. -/
theorem witness_RejectedKeyLeavesNoKey :
    (∀ len ∈ [0, 15, 17, 31, 33, 255], len ≠ 16 ∧ len ≠ 24 ∧ len ≠ 32) ∧
    State.reset.kv = false ∧
    (withEvent .reset State.reset).port = .reset :: [] ∧ (withEvent .reset State.reset).kv = false ∧
    ¬ PortEvent.LoadsKey .reset ∧ ∃ t, step (withEvent .reset State.reset) = .next t :=
  ⟨by decide, rfl, rfl, rfl, (by rintro ⟨v, len, h, -⟩; cases h), _, rfl⟩

theorem witness_ExpandObeysTheRecurrence :
    ((4 : Nat) = 4 ∨ (4 : Nat) = 6 ∨ (4 : Nat) = 8) ∧ (0 : Fin 8).val < 4 ∧ (3 : Fin 8).val < 4 ∧
    (7 : Fin 8).val < 8 ∧ 4 ≤ (4 : Fin 120).val ∧ 8 ≤ (119 : Fin 120).val := by decide

theorem witness_ExpandBranchTable :
    4 ≤ 4 ∧ 4 < 120 ∧ 6 ≤ 119 ∧ 119 < 120 ∧ 8 ≤ 12 ∧ 12 < 120 ∧
    116 ∈ (List.range 29).map (4 * · + 4) ∧ 114 ∈ (List.range 19).map (6 * · + 6) ∧
    118 ∈ (List.range 19).map (6 * · + 10) ∧ 112 ∈ (List.range 14).map (8 * · + 8) ∧
    116 ∈ (List.range 14).map (8 * · + 12) := by decide

/-- Two states that differ in a key byte that is not read and in the old schedule. -/
theorem witness_ScheduleDependsOnTheKeyAlone :
    (∀ i : Fin 32, i.val < 16 → key16[i] = key24[i]) ∧ key16 ≠ key24 ∧
    (∃ t, exec (.loadkey 16) keyed = .next t) ∧
    ∃ t, exec (.loadkey 16) { State.reset with key := key24 } = .next t :=
  ⟨by decide +kernel, by decide +kernel, ⟨_, execLoadkey_accepted _ rfl⟩, _, execLoadkey_accepted _ rfl⟩

theorem witness_EncWritesTheCipher : keyed.kv = true ∧ 0 ≤ 32 ∧ 32 ≤ 32 ∧ 32 < 33 := ⟨rfl, by decide⟩

theorem witness_DecWritesTheInverseCipher : keyed.kv = true ∧ 31 ≠ 32 ∧ 33 ≠ 32 := ⟨rfl, by decide⟩

theorem witness_OneErrorInPriorityOrder :
    (withCmd 0x00002802 State.reset).port = .access (cmdWrite 0x00002802) :: [] := rfl

theorem witness_FailedCommandChangesOnlyStatus :
    (∃ t, exec (.enc 0) State.reset = .next t ∧ t.err ≠ 0#4) ∧
    (∃ t, exec (.loadkey 33) keyed = .next t ∧ t.err ≠ 0#4) ∧ ∀ len, Instr.enc 0 ≠ .loadkey len :=
  ⟨⟨_, execEnc_noKey _ rfl, by decide⟩, ⟨_, execLoadkey_rejected _ rfl, by decide⟩, fun _ h => by cases h⟩

/-- "12" read as two bytes, and "12" with a zero byte after it read as three (R125). -/
theorem witness_EncDependsOnTheSourceAlone :
    (2 : Nat) ≤ 3 ∧ 3 ≤ 32 ∧
    (∀ i : Fin 32, i.val < 2 → text123[i] = (blockOf #v[0x313200AA, 0, 0, 0, 0, 0, 0, 0])[i]) ∧
    (∀ i : Fin 32, 2 ≤ i.val → i.val < 3 → (blockOf #v[0x313200AA, 0, 0, 0, 0, 0, 0, 0])[i] = 0x00#8) ∧
    (∃ t, exec (.enc 2) { keyed with din := text123 } = .next t) ∧
    ∃ t, exec (.enc 3) { keyed with din := blockOf #v[0x313200AA, 0, 0, 0, 0, 0, 0, 0] } = .next t :=
  ⟨by decide, by decide, by decide +kernel, by decide +kernel, ⟨_, execEnc_accepted _ rfl rfl⟩,
    _, execEnc_accepted _ rfl rfl⟩

theorem witness_HostRoundTrip :
    ((24 : Nat) = 16 ∨ (24 : Nat) = 24 ∨ (24 : Nat) = 32) ∧ (0 : Nat) ≤ 32 ∧ (32 : Nat) ≤ 32 := by decide

/-- One event for each row of R34, with its step. -/
theorem witness_FlagsFollowTheEventTable :
    (∃ t, step (withEvent .reset keyed) = .next t) ∧ PortEvent.IsReset .reset ∧
    (∃ t, step (withEvent (.resetDuring 0x00001001 1) keyed) = .next t) ∧
      PortEvent.IsReset (.resetDuring 0x00001001 1) ∧
    (∃ t, step (withCmd 0x00002001 keyed) = .next t) ∧ decode 0x00002001#32 = .ok (.loadkey 32) ∧
    (∃ t, step (withCmd 0x00002101 keyed) = .next t) ∧ decode 0x00002101#32 = .ok (.loadkey 33) ∧
    (∃ t, step (withCmd 0x00002002 keyed) = .next t) ∧ decode 0x00002002#32 = .ok (.enc 32) ∧
    (∃ t, step (withCmd 0x00002102 keyed) = .next t) ∧ decode 0x00002102#32 = .ok (.enc 33) ∧
    (∃ t, step (withCmd 0x00002003 keyed) = .next t) ∧ decode 0x00002003#32 = .ok (.dec 32) ∧
    (∃ t, step (withCmd 0x00001F03 keyed) = .next t) ∧ decode 0x00001F03#32 = .ok (.dec 31) ∧
    (∃ t, step (withCmd 0x00000000 keyed) = .next t) ∧ decode 0x00000000#32 = .error .opcode ∧
    (∃ t, step (withEvent (.access (readAt 0x04)) keyed) = .next t) ∧ ∀ v, readAt 0x04 ≠ cmdWrite v :=
  ⟨⟨_, rfl⟩, .inl rfl, ⟨_, rfl⟩, .inr ⟨_, _, rfl⟩, ⟨_, rfl⟩, by decide, ⟨_, rfl⟩, by decide, ⟨_, rfl⟩, by decide,
    ⟨_, rfl⟩, by decide, ⟨_, rfl⟩, by decide, ⟨_, rfl⟩, by decide, ⟨_, rfl⟩, by decide, ⟨_, rfl⟩,
    fun v h => by injection h with h; cases h⟩

/-- States with the invariants, before a step: with a key loaded, and without. -/
theorem witness_invariants :
    State.StatusOk (withCmd 0x00002101 keyed) ∧ State.ErrOk (withCmd 0x00002101 keyed) ∧
    State.Idle (withCmd 0x00002101 keyed) ∧ (∃ t, step (withCmd 0x00002101 keyed) = .next t) ∧
    State.StatusOk (withCmd 0x00001001 State.reset) ∧ State.ErrOk (withCmd 0x00001001 State.reset) ∧
    State.Idle (withCmd 0x00001001 State.reset) ∧ State.ScheduleOk (withCmd 0x00001001 State.reset) ∧
    ∃ t, step (withCmd 0x00001001 State.reset) = .next t :=
  ⟨by decide, by decide, rfl, ⟨_, rfl⟩, by decide, by decide, rfl, (fun h => by cases h), _, rfl⟩

/-- A state with a key loaded and its schedule expanded, before a step. -/
theorem witness_ScheduleInvariantIsKept :
    keyed.kv = true ∧ State.ScheduleOk (withCmd 0x00000302 keyed) ∧ ∃ t, step (withCmd 0x00000302 keyed) = .next t := by
  refine ⟨rfl, fun _ i h0 hi => ?_, _, rfl⟩
  change (expandKey 4 key16)[i] = (expandKey 4 key16)[i.val - 4] ^^^ scheduleTemp 4 i.val (expandKey 4 key16)[i.val - 1]
  rw [expandKey]
  exact expandFrom_recurrence 4 (by decide) (120 - 4) 4 _ (by decide) (by decide) i.val hi (by omega)

/-- A write to each end of `KEY` and of `DIN`. -/
theorem witness_KeyAndDinChangeOnlyByHostWrites :
    (withEvent (.access (writeAt 0x20 1)) keyed).port = .access (writeAt 0x20 1) :: [] ∧
    (∃ t, step (withEvent (.access (writeAt 0x20 1)) keyed) = .next t) ∧
    (∃ t, step (withEvent (.access (writeAt 0x3C 1)) keyed) = .next t) ∧
    (∃ t, step (withEvent (.access (writeAt 0x40 1)) keyed) = .next t) ∧
    (∃ t, step (withEvent (.access (writeAt 0x5C 1)) keyed) = .next t) ∧
    ¬ PortEvent.IsReset (.access (writeAt 0x20 1)) :=
  ⟨rfl, ⟨_, rfl⟩, ⟨_, rfl⟩, ⟨_, rfl⟩, ⟨_, rfl⟩, by rintro (h | ⟨v, k, h⟩) <;> cases h⟩

theorem witness_DoutAndScheduleChangeOnlyByCommands :
    (withCmd 0x00002002 keyed).port = .access (cmdWrite 0x00002002) :: [] ∧
    (∃ t, step (withCmd 0x00002002 keyed) = .next t) ∧ (∃ t, step (withCmd 0x00001001 keyed) = .next t) ∧
    ¬ PortEvent.IsReset (.access (cmdWrite 0x00002002)) ∧ PortEvent.LoadsKey (.access (cmdWrite 0x00001001)) :=
  ⟨rfl, ⟨_, rfl⟩, ⟨_, rfl⟩, (by rintro (h | ⟨v, k, h⟩) <;> cases h), _, _, rfl, by decide, .inl rfl⟩

/-- A misaligned read, a read of `KEY`, a write of `STATUS` and a write of two bytes. -/
theorem witness_BusErrorLeavesTheBlock :
    ¬ (readAt 0x42).Allowed ∧ ¬ (readAt 0x3C).Allowed ∧ ¬ (writeAt 0x04 1).Allowed ∧
    ¬ Access.Allowed ⟨0x40, 2, .write 0⟩ ∧ (readAt 0x42).dir = .read ∧ (writeAt 0x04 1).dir = .write 1 ∧
    (withEvent (.access (readAt 0x42)) keyed).port = .access (readAt 0x42) :: [] := by decide +kernel

/-- `STATUS`, and both ends of `DIN` and of `DOUT`. -/
theorem witness_AllowedReadsReturnTheirWord :
    (withEvent (.access (readAt 0x7C)) keyed).port = .access (readAt 0x7C) :: [] ∧ (0x04#7).toNat = 0x04 ∧
    (0x40#7).toNat = 0x40 + 4 * (0 : Fin 8).val ∧ (0x5C#7).toNat = 0x40 + 4 * (7 : Fin 8).val ∧
    (0x60#7).toNat = 0x60 + 4 * (0 : Fin 8).val ∧ (0x7C#7).toNat = 0x60 + 4 * (7 : Fin 8).val :=
  ⟨rfl, by decide⟩

theorem witness_AllowedWritesSetTheirBytes :
    (withEvent (.access (writeAt 0x20 1)) keyed).port =
      .access (writeAt (BitVec.ofNat 7 (0x20 + 4 * (0 : Fin 8).val)) 1) :: [] ∧
    (withEvent (.access (writeAt 0x5C 1)) keyed).port =
      .access (writeAt (BitVec.ofNat 7 (0x40 + 4 * (7 : Fin 8).val)) 1) :: [] ∧
    (31 : Fin 32).val / 4 ≠ (0 : Fin 8).val := ⟨rfl, rfl, by decide⟩

/-- Two states with other keys and other schedules, and a read. -/
theorem witness_NoBusAccessReturnsKeyMaterial :
    State.SameToReads (withEvent (.access (readAt 0x60)) { keyed with key := key24, w := State.reset.w })
      (withEvent (.access (readAt 0x60)) keyed) ∧ key24 ≠ key16 ∧ (∀ v, readAt 0x60 ≠ cmdWrite v) ∧
    (∃ t, step (withEvent (.access (readAt 0x60)) { keyed with key := key24, w := State.reset.w }) = .next t) ∧
    ∃ t, step (withEvent (.access (readAt 0x60)) keyed) = .next t :=
  ⟨⟨rfl, rfl, rfl, rfl, rfl, rfl, rfl⟩, by decide +kernel, (fun v h => by injection h with h; cases h),
    ⟨_, rfl⟩, _, rfl⟩

/-- Two states that differ in `W` and in `STATE` while no key is loaded, and a command. -/
theorem witness_UnspecifiedStateIsUnobservable :
    State.Alike (withCmd 0x00001001 State.reset)
      (withCmd 0x00001001 { State.reset with w := Vector.replicate 120 1#32, matrix := load inc }) ∧
    (∃ t, step (withCmd 0x00001001 State.reset) = .next t) ∧
    ∃ t, step (withCmd 0x00001001 { State.reset with w := Vector.replicate 120 1#32, matrix := load inc }) = .next t :=
  ⟨⟨rfl, rfl, rfl, rfl, rfl, rfl, (fun h => by cases h), rfl, rfl, rfl⟩, ⟨_, rfl⟩, _, rfl⟩

theorem witness_ResetEventSetsTheState : (withEvent .reset keyed).port = .reset :: [] := rfl

theorem witness_ResetAbortsTheCommand :
    (withEvent (.resetDuring 0x00001801 7) keyed).port = .resetDuring 0x00001801 7 :: [] ∧
    (∃ t, step (withEvent (.resetDuring 0x00001801 7) keyed) = .next t) ∧
    ∃ t, step { withEvent (.resetDuring 0x00001801 7) keyed with port := .reset :: [] } = .next t :=
  ⟨rfl, ⟨_, rfl⟩, _, rfl⟩

theorem witness_XtimeDoublesModulo0x11B : xtime 0x80 = xtime 0x80 ∧ (0x80#8 <<< 1) = 0x00#8 := by decide

theorem witness_GmulFieldLaws : gmul 0xA5 0x00 = 0x00 := by decide

theorem witness_GinvIsTheInverse : (0x53#8) ≠ 0x00#8 ∧ gmul 0x53 0xCA = 0x01 := by decide +kernel

theorem witness_WordOperationsAndRoundConstants : 1 < 2 ∧ 2 ≤ 29 ∧ 1 < 29 ∧ 29 ≤ 29 := by decide

theorem witness_RoundKeyIsAViewOfTheSchedule :
    ((6 : Nat) = 4 ∨ (6 : Nat) = 6 ∨ (6 : Nat) = 8) ∧ (0 : Fin 8).val < 6 ∧ (5 : Fin 8).val < 6 := by decide

/-- Column 0 of row 3 moves to column 4 either way, and of row 2 to column 5 or to column 3. -/
theorem witness_ShiftRowsMovesBytes :
    4 = (0 + 8 - #v[0, 1, 3, 4][(3 : Fin 4)]) % 8 ∧ 4 = (0 + #v[0, 1, 3, 4][(3 : Fin 4)]) % 8 ∧
    5 = (0 + 8 - #v[0, 1, 3, 4][(2 : Fin 4)]) % 8 ∧ 3 = (0 + #v[0, 1, 3, 4][(2 : Fin 4)]) % 8 := by decide

theorem witness_MixColumnsActsOnColumns :
    (∀ r : Fin 4, (load (Vector.replicate 32 0xC6#8))[r][(7 : Fin 8)] = 0xC6#8) ∧
    ∀ r : Fin 4, (load text123)[r][(1 : Fin 8)] = (load text123)[r][(7 : Fin 8)] := by decide +kernel

theorem witness_SequenceIgnoresKeyAndData :
    State.reset.seq = keyed.seq ∧ (0 < 1 ∧ 1 < 56) ∧ (0 < 55 ∧ 55 < 56) ∧ 4 < 120 := ⟨rfl, by decide, by decide, by decide⟩

theorem witness_LatencyIgnoresKeyAndData :
    keyed.kv = { keyed with key := key24, din := cipher123, w := State.reset.w }.kv ∧
    (∃ t, exec (.loadkey 16) State.reset = .next t) ∧ ∃ t, exec (.dec 0) keyed = .next t :=
  ⟨rfl, ⟨_, execLoadkey_accepted _ rfl⟩, _, execDec_srcLen _ rfl rfl⟩

theorem witness_PseudoLinesFillAndRead :
    State.reset.port = [] ∧ ([] : List Byte).length ≤ 32 ∧ (List.replicate 32 0xAA#8).length ≤ 32 :=
  ⟨rfl, by decide, by decide⟩

end Sys2Proof.Tests
end

-- Proofs: what one event at the port can do
section
/-!
SUPPORT. What a command and what an event do, as relations whose constructors are the cases of `exec` and of
`performEvent`. Each relation is tied to the model by an `↔`, so an invariant is a case analysis over it, and a single
step is one of its constructors.
-/

namespace Sys2Proof.Machine

/-! ## Which access reaches which register (R42, R43) -/

theorem regAt_eq_cmd {off : Offset} : regAt off = some .cmd ↔ off.toNat = 0x00 := by
  simp only [regAt]
  split_ifs <;> simp <;> omega

theorem regAt_eq_status {off : Offset} : regAt off = some .status ↔ off.toNat = 0x04 := by
  simp only [regAt]
  split_ifs <;> simp <;> omega

theorem regAt_eq_keyW {off : Offset} {j : Fin 8} : regAt off = some (.keyW j) ↔ off.toNat = 0x20 + 4 * j.val := by
  simp only [regAt]
  split_ifs <;> simp [Fin.ext_iff] <;> omega

theorem regAt_eq_dinW {off : Offset} {j : Fin 8} : regAt off = some (.dinW j) ↔ off.toNat = 0x40 + 4 * j.val := by
  simp only [regAt]
  split_ifs <;> simp [Fin.ext_iff] <;> omega

theorem regAt_eq_doutW {off : Offset} {j : Fin 8} : regAt off = some (.doutW j) ↔ off.toNat = 0x60 + 4 * j.val := by
  simp only [regAt]
  split_ifs <;> simp [Fin.ext_iff] <;> omega

/-- An access is known by its size, its offset and its direction. -/
theorem eq_writeAt {a : Access} {off : Offset} {v : Word} (hs : a.size = 4) (ho : a.off.toNat = off.toNat)
    (hd : a.dir = .write v) : a = writeAt off v := by
  obtain ⟨o, n, d⟩ := a
  cases hs
  cases hd
  obtain rfl : o = off := BitVec.eq_of_toNat_eq ho
  rfl

theorem eq_cmdWrite_of_accessReg {a : Access} {v : Word} (hr : accessReg a = some .cmd) (hd : a.dir = .write v) :
    a = cmdWrite v := by
  obtain ⟨hs, ho, -⟩ := accessReg_eq_some.mp hr
  exact eq_writeAt hs (regAt_eq_cmd.mp ho) hd

theorem eq_writeAt_of_accessReg_keyW {a : Access} {j : Fin 8} {v : Word} (hr : accessReg a = some (.keyW j))
    (hd : a.dir = .write v) : a = writeAt (BitVec.ofNat 7 (0x20 + 4 * j.val)) v := by
  obtain ⟨hs, ho, -⟩ := accessReg_eq_some.mp hr
  refine eq_writeAt hs ?_ hd
  rw [regAt_eq_keyW.mp ho, BitVec.toNat_ofNat]
  omega

theorem eq_writeAt_of_accessReg_dinW {a : Access} {j : Fin 8} {v : Word} (hr : accessReg a = some (.dinW j))
    (hd : a.dir = .write v) : a = writeAt (BitVec.ofNat 7 (0x40 + 4 * j.val)) v := by
  obtain ⟨hs, ho, -⟩ := accessReg_eq_some.mp hr
  refine eq_writeAt hs ?_ hd
  rw [regAt_eq_dinW.mp ho, BitVec.toNat_ofNat]
  omega

theorem accessReg_writeAt_keyW (j : Fin 8) (v : Word) :
    accessReg (writeAt (BitVec.ofNat 7 (0x20 + 4 * j.val)) v) = some (.keyW j) := by
  refine accessReg_eq_some.mpr ⟨rfl, regAt_eq_keyW.mpr ?_, rfl⟩
  rw [writeAt, BitVec.toNat_ofNat]
  omega

theorem accessReg_writeAt_dinW (j : Fin 8) (v : Word) :
    accessReg (writeAt (BitVec.ofNat 7 (0x40 + 4 * j.val)) v) = some (.dinW j) := by
  refine accessReg_eq_some.mpr ⟨rfl, regAt_eq_dinW.mpr ?_, rfl⟩
  rw [writeAt, BitVec.toNat_ofNat]
  omega

/-- A word read at the offset of a readable register reaches it (R42, R43). -/
theorem accessReg_readAt {off : Offset} {r : Reg} (hr : regAt off = some r) (h : r.readable = true) :
    accessReg (readAt off) = some r :=
  accessReg_eq_some.mpr ⟨rfl, hr, h⟩

/-! ## What a command does (R120) -/

/-- `CommandEffect s i t`: command `i` takes state `s` to state `t`. -/
inductive CommandEffect (s : State) : Instr → State → Prop
  /-- LOADKEY of a legal length (R121). -/
  | loadkey {len : Nat} (h : keyLenOk len = true) : CommandEffect s (.loadkey len) { s with
      w := expandKey (len / 4) s.key, kv := true, nk := BitVec.ofNat 4 (len / 4), err := 0#4, seq := .idle }
  /-- LOADKEY of another length (R121, R122). -/
  | badKey {len : Nat} (h : keyLenOk len = false) :
      CommandEffect s (.loadkey len) { s with kv := false, nk := 0#4, err := 1#4 }
  /-- ENC that passes its checks (R124). -/
  | enc {len : Nat} (hk : s.kv = true) (h : encLenOk len = true) : CommandEffect s (.enc len) { s with
      dout := cipher (zeroExtend len s.din) s.w, matrix := Config.freeMatrix s.freeCount,
      freeCount := s.freeCount + 1, err := 0#4, seq := .idle }
  /-- DEC that passes its checks (R128). -/
  | dec {len : Nat} (hk : s.kv = true) (h : decLenOk len = true) : CommandEffect s (.dec len) { s with
      dout := invCipher s.din s.w, matrix := Config.freeMatrix s.freeCount,
      freeCount := s.freeCount + 1, err := 0#4, seq := .idle }
  /-- ENC or DEC without a key (R124, R128, R140). -/
  | noKey {i : Instr} (hi : ∀ len, i ≠ .loadkey len) (hk : s.kv = false) : CommandEffect s i { s with err := 3#4 }
  /-- ENC or DEC of a bad length under a key (R126, R128). -/
  | srcLen {i : Instr} (hi : ∀ len, i ≠ .loadkey len) (hk : s.kv = true) (h : accepts i s = false) :
      CommandEffect s i { s with err := 2#4 }

/-- Every command answers, with its effect (R120, R137). -/
theorem exec_effect (i : Instr) (s : State) : ∃ t, exec i s = .next t ∧ CommandEffect s i t := by
  obtain ⟨len, rfl, h, he⟩ | ⟨len, rfl, h, he⟩ | ⟨len, rfl, hk, h, he⟩ | ⟨len, rfl, hk, h, he⟩ |
    ⟨⟨len, hi⟩, hk, he⟩ | ⟨⟨len, hi⟩, hk, he⟩ := exec_cases i s
  · exact ⟨_, he, .loadkey h⟩
  · exact ⟨_, he, .badKey h⟩
  · exact ⟨_, he, .enc hk h⟩
  · exact ⟨_, he, .dec hk h⟩
  · refine ⟨_, he, .noKey ?_ hk⟩
    obtain rfl | rfl := hi <;> simp
  · refine ⟨_, he, .srcLen ?_ hk ?_⟩
    · obtain ⟨rfl, -⟩ | ⟨rfl, -⟩ := hi <;> simp
    · obtain ⟨rfl, h⟩ | ⟨rfl, h⟩ := hi <;> simp [accepts, h]

/-- A command has no other effect than the one `exec` answers. -/
theorem CommandEffect.exec_eq {s t : State} {i : Instr} (h : CommandEffect s i t) : exec i s = .next t := by
  cases h with
  | loadkey h => exact execLoadkey_accepted s h
  | badKey h => exact execLoadkey_rejected s h
  | enc hk h => exact execEnc_accepted s hk h
  | dec hk h => exact execDec_accepted s hk h
  | noKey hi hk =>
    cases i with
    | loadkey len => exact absurd rfl (hi len)
    | enc len => exact execEnc_noKey s hk
    | dec len => exact execDec_noKey s hk
  | srcLen hi hk h =>
    cases i with
    | loadkey len => exact absurd rfl (hi len)
    | enc len => exact execEnc_srcLen s hk (by simpa [accepts, hk] using h)
    | dec len => exact execDec_srcLen s hk (by simpa [accepts, hk] using h)

/-! ## What an event does (R50, R51) -/

/-- `EventEffect s e t`: event `e`, taken from the port, takes state `s` to state `t`. -/
inductive EventEffect (s : State) : PortEvent → State → Prop
  /-- An access that is not carried out (R44). -/
  | busError {a : Access} (hr : accessReg a = none) : EventEffect s (.access a) (busError a.dir s)
  /-- A read of a register (R45, R46). -/
  | read {a : Access} {r : Reg} {v : Word} (hd : a.dir = .read) (hr : accessReg a = some r)
      (hv : readReg s r = some v) : EventEffect s (.access a) (respond (.readData v) s)
  /-- A write of a word of `KEY` (R26, R45). -/
  | writeKey (j : Fin 8) (v : Word) : EventEffect s (.access (writeAt (BitVec.ofNat 7 (0x20 + 4 * j.val)) v))
      (respond .writeAck (writeKeyWord j v s))
  /-- A write of a word of `DIN` (R27, R45). -/
  | writeDin (j : Fin 8) (v : Word) : EventEffect s (.access (writeAt (BitVec.ofNat 7 (0x40 + 4 * j.val)) v))
      (respond .writeAck (writeDinWord j v s))
  /-- A write of a command's word to `CMD` (R120). -/
  | command {v : Word} {i : Instr} {t : State} (hv : decode v = .ok i) (h : CommandEffect s i t) :
      EventEffect s (.access (cmdWrite v)) (respond .writeAck t)
  /-- A write of an illegal word to `CMD` (R131). -/
  | badCommand {v : Word} {b : BadCmd} (hv : decode v = .error b) :
      EventEffect s (.access (cmdWrite v)) (respond .writeAck { s with err := 4#4 })
  /-- A reset between commands (R151). -/
  | reset : EventEffect s .reset (resetBlock s)
  /-- A reset in the middle of a command (R152). -/
  | resetDuring (v : Word) (k : Nat) : EventEffect s (.resetDuring v k) (resetBlock s)

/-- Every event is answered, with its effect. -/
theorem performEvent_effect (e : PortEvent) (s : State) : ∃ t, performEvent e s = .next t ∧ EventEffect s e t := by
  obtain ⟨a, rfl, hr, he⟩ | ⟨a, r, v, rfl, hd, hr, hv, he⟩ | ⟨a, j, v, rfl, hd, hr, he⟩ | ⟨a, j, v, rfl, hd, hr, he⟩ |
    ⟨a, v, i, rfl, hd, hr, hv, he⟩ | ⟨a, v, b, rfl, hd, hr, hv, he⟩ | ⟨rfl, he⟩ | ⟨v, k, rfl, he⟩ :=
    performEvent_cases e s
  · exact ⟨_, he, .busError hr⟩
  · exact ⟨_, he, .read hd hr hv⟩
  · obtain rfl := eq_writeAt_of_accessReg_keyW hr hd
    exact ⟨_, he, .writeKey j v⟩
  · obtain rfl := eq_writeAt_of_accessReg_dinW hr hd
    exact ⟨_, he, .writeDin j v⟩
  · obtain rfl := eq_cmdWrite_of_accessReg hr hd
    obtain ⟨t, ht, hc⟩ := exec_effect i s
    exact ⟨_, he.trans (by rw [ht, acknowledge]), .command hv hc⟩
  · obtain rfl := eq_cmdWrite_of_accessReg hr hd
    exact ⟨_, he, .badCommand hv⟩
  · exact ⟨_, he, .reset⟩
  · exact ⟨_, he, .resetDuring v k⟩

theorem performEvent_writeAt {off : Offset} {r : Reg} {v : Word} (hr : accessReg (writeAt off v) = some r) (s : State) :
    performEvent (.access (writeAt off v)) s = performWrite r v s := by
  simp only [performEvent, performAccess, hr]
  rfl

theorem performEvent_cmdWrite (v : Word) (s : State) :
    performEvent (.access (cmdWrite v)) s = runCommand v s :=
  performEvent_writeAt (accessReg_cmdWrite v) s

/-- An event has no other effect than the one the block performs. -/
theorem EventEffect.performEvent_eq {s t : State} {e : PortEvent} (h : EventEffect s e t) :
    performEvent e s = .next t := by
  cases h with
  | busError hr => simp only [performEvent, performAccess, hr]
  | read hd hr hv => simp only [performEvent, performAccess, hr, hd, performRead, hv]
  | writeKey j v => exact performEvent_writeAt (accessReg_writeAt_keyW j v) s
  | writeDin j v => exact performEvent_writeAt (accessReg_writeAt_dinW j v) s
  | command hv h => simp only [performEvent_cmdWrite, runCommand, hv, h.exec_eq, acknowledge]
  | badCommand hv => simp only [performEvent_cmdWrite, runCommand, hv, execBadCmd_eq, acknowledge]
  | reset => rfl
  | resetDuring v k => rw [performEvent, resetBlock_inProgress]

theorem performEvent_next_iff {e : PortEvent} {s t : State} : performEvent e s = .next t ↔ EventEffect s e t := by
  refine ⟨fun h => ?_, EventEffect.performEvent_eq⟩
  obtain ⟨t', h', he⟩ := performEvent_effect e s
  rw [h] at h'
  cases h'
  exact he

/-- An event has one effect in a state. -/
theorem EventEffect.unique {s t t' : State} {e : PortEvent} (h : EventEffect s e t) (h' : EventEffect s e t') :
    t = t' := by
  have := h.performEvent_eq.symm.trans h'.performEvent_eq
  cases this
  rfl

/-! ## What a step does -/

theorem step_next_iff {s t : State} {e : PortEvent} {rest : List PortEvent} (hp : s.port = e :: rest) :
    step s = .next t ↔ EventEffect { s with port := rest } e t := by
  rw [step_event hp, performEvent_next_iff]

/-- A property that does not speak of the port, and that every event keeps, is kept by every step. -/
theorem step_preserves {P : State → Prop} (hport : ∀ s rest, P s → P { s with port := rest })
    (hevent : ∀ s t e, EventEffect s e t → P s → P t) {s t : State} (hs : P s) (h : step s = .next t) : P t := by
  rcases hp : s.port with _ | ⟨e, rest⟩
  · rw [step_idle hp] at h
    cases h
    exact hs
  · exact hevent _ _ _ ((step_next_iff hp).mp h) (hport s rest hs)

end Sys2Proof.Machine
end

-- Proofs: the statements about the state (10_state.md)
section
/-!
SUPPORT. The invariants of R24, R35 and R36, the noninterference of R37 and R40, and which event writes which piece of
the state (R26 to R28, R34).
-/

namespace Sys2Proof.Machine

/-! ## The key state: `KV`, `NK` and `W` (R31, R33, R36) -/

/-- What may become of the key state when `s` goes to `t`: it stays, it is cleared, or a key of a legal length is
loaded (R34, R36). -/
def KeyStateChange (s t : State) : Prop :=
  (t.kv = s.kv ∧ t.nk = s.nk ∧ t.w = s.w) ∨
  (t.kv = false ∧ t.nk = 0#4) ∨
  ∃ len, (len = 16 ∨ len = 24 ∨ len = 32) ∧ t.kv = true ∧ t.nk = BitVec.ofNat 4 (len / 4) ∧
    t.w = expandKey (len / 4) s.key

theorem CommandEffect.keyStateChange {s t : State} {i : Instr} (h : CommandEffect s i t) : KeyStateChange s t := by
  cases h with
  | loadkey h => exact .inr (.inr ⟨_, keyLenOk_cases h, rfl, rfl, rfl⟩)
  | badKey h => exact .inr (.inl ⟨rfl, rfl⟩)
  | enc hk h => exact .inl ⟨rfl, rfl, rfl⟩
  | dec hk h => exact .inl ⟨rfl, rfl, rfl⟩
  | noKey hi hk => exact .inl ⟨rfl, rfl, rfl⟩
  | srcLen hi hk h => exact .inl ⟨rfl, rfl, rfl⟩

theorem EventEffect.keyStateChange {s t : State} {e : PortEvent} (h : EventEffect s e t) : KeyStateChange s t := by
  cases h with
  | busError hr => exact .inl (by simp)
  | read hd hr hv => exact .inl (by simp)
  | writeKey j v => exact .inl (by simp)
  | writeDin j v => exact .inl (by simp)
  | command hv h => simpa [KeyStateChange] using h.keyStateChange
  | badCommand hv => exact .inl (by simp)
  | reset => exact .inr (.inl (by simp))
  | resetDuring v k => exact .inr (.inl (by simp))

/-- Settles O24: an event keeps `KV` and `NK`, clears both, or loads a key with its `Nk` (R34, R35). -/
theorem statusInvariantIsKept : Obligations.StatusInvariantIsKept := by
  refine fun s t hs => step_preserves (P := State.StatusOk) (fun _ _ h => h) (fun s t e he hs => ?_) hs
  obtain ⟨hkv, hnk, -⟩ | ⟨hkv, hnk⟩ | ⟨len, hlen, hkv, hnk, -⟩ := he.keyStateChange
  · simpa [State.StatusOk, hkv, hnk] using hs
  · simp [State.StatusOk, hkv, hnk]
  · obtain rfl | rfl | rfl := hlen <;> simp [State.StatusOk, hkv, hnk]

/-- `Expand(Nk, K)` obeys the recurrence from word `Nk` on (R92). -/
theorem scheduleExpanded_expandKey {nk : Nat} (h0 : 0 < nk) (h : nk ≤ 120) (key : Block) :
    scheduleExpanded nk (expandKey nk key) := by
  intro i _ hi
  rw [expandKey]
  exact expandFrom_recurrence nk h0 (120 - nk) nk _ h0 (by omega) i.val hi (by omega)

/-- Settles O27: `W` and `NK` stay while `KV` is 1, or a LOADKEY puts an expanded schedule for its `Nk` into `W`
(R36, R123). -/
theorem scheduleInvariantIsKept : Obligations.ScheduleInvariantIsKept := by
  refine fun s t hs => step_preserves (P := State.ScheduleOk) (fun _ _ h => h) (fun s t e he hs => ?_) hs
  obtain ⟨hkv, hnk, hw⟩ | ⟨hkv, -⟩ | ⟨len, hlen, -, hnk, hw⟩ := he.keyStateChange
  · rw [State.ScheduleOk, hkv, hnk, hw]
    exact hs
  · simp [State.ScheduleOk, hkv]
  · intro _
    rw [hw, hnk, BitVec.toNat_ofNat, Nat.mod_eq_of_lt (by omega)]
    exact scheduleExpanded_expandKey (by omega) (by omega) s.key

/-! ## Noninterference (R37, R40) -/

theorem State.Alike.kv_eq {s s' : State} (h : s.Alike s') : s.kv = s'.kv := by
  obtain ⟨-, -, -, hkv, -⟩ := h
  exact hkv

theorem State.Alike.port_eq {s s' : State} (h : s.Alike s') : s.port = s'.port := by
  obtain ⟨-, -, -, -, -, -, -, -, hport, -⟩ := h
  exact hport

/-- What a read returns depends neither on `STATE` nor on `W` (R40). -/
theorem State.Alike.readReg_eq {s s' : State} (h : s.Alike s') (r : Reg) : readReg s r = readReg s' r := by
  obtain ⟨-, hdin, hdout, hkv, herr, hnk, -⟩ := h
  cases r <;> simp [readReg, statusWord, *]

theorem State.Alike.respond {s s' : State} (h : s.Alike s') (r : BusResponse) :
    (respond r s).Alike (Machine.respond r s') := by
  simpa [State.Alike] using h

theorem State.Alike.busError {s s' : State} (h : s.Alike s') (d : Direction) :
    (busError d s).Alike (Machine.busError d s') := by
  cases d with
  | read => exact h.respond _
  | write v => exact h.respond _

theorem State.Alike.withErr {s s' : State} (h : s.Alike s') (c : BitVec 4) :
    State.Alike { s with err := c } { s' with err := c } := by
  simp_all [State.Alike]

theorem State.Alike.resetBlock {s s' : State} (h : s.Alike s') : (resetBlock s).Alike (Machine.resetBlock s') := by
  simp_all [State.Alike]

/-- A command takes alike states to alike states: whether it is accepted depends on `KV` alone, and under a key the
two schedules agree (R40). -/
theorem CommandEffect.alike {s s' t : State} {i : Instr} (h : CommandEffect s i t) (hs : s.Alike s') :
    ∃ t', CommandEffect s' i t' ∧ t.Alike t' := by
  have hkv := hs.kv_eq
  cases h with
  | loadkey h => exact ⟨_, .loadkey h, by simp_all [State.Alike]⟩
  | badKey h => exact ⟨_, .badKey h, by simp_all [State.Alike]⟩
  | enc hk h => exact ⟨_, .enc (hkv ▸ hk) h, by simp_all [State.Alike]⟩
  | dec hk h => exact ⟨_, .dec (hkv ▸ hk) h, by simp_all [State.Alike]⟩
  | noKey hi hk => exact ⟨_, .noKey hi (hkv ▸ hk), hs.withErr _⟩
  | srcLen hi hk h =>
    refine ⟨_, .srcLen hi (hkv ▸ hk) ?_, hs.withErr _⟩
    cases i <;> simpa [accepts, hkv] using h

/-- An event takes alike states to alike states (R40). -/
theorem EventEffect.alike {s s' t : State} {e : PortEvent} (h : EventEffect s e t) (hs : s.Alike s') :
    ∃ t', EventEffect s' e t' ∧ t.Alike t' := by
  cases h with
  | busError hr => exact ⟨_, .busError hr, hs.busError _⟩
  | read hd hr hv => exact ⟨_, .read hd hr (hs.readReg_eq _ ▸ hv), hs.respond _⟩
  | writeKey j v => exact ⟨_, .writeKey j v, by simp_all [State.Alike]⟩
  | writeDin j v => exact ⟨_, .writeDin j v, by simp_all [State.Alike]⟩
  | command hv h =>
    obtain ⟨t', h', ht⟩ := h.alike hs
    exact ⟨_, .command hv h', ht.respond _⟩
  | badCommand hv => exact ⟨_, .badCommand hv, (hs.withErr _).respond _⟩
  | reset => exact ⟨_, .reset, hs.resetBlock⟩
  | resetDuring v k => exact ⟨_, .resetDuring v k, hs.resetBlock⟩

theorem State.Alike.withPort {s s' : State} (h : s.Alike s') (rest : List PortEvent) :
    State.Alike { s with port := rest } { s' with port := rest } := by
  simp_all [State.Alike]

/-- Settles O38: alike states deliver the same event, the event takes them to alike states, and it has one effect
(R40). -/
theorem unspecifiedStateIsUnobservable : Obligations.UnspecifiedStateIsUnobservable := by
  intro s s' t t' hs h h'
  have hport := hs.port_eq
  rcases hp : s.port with _ | ⟨e, rest⟩
  · rw [step_idle hp] at h
    rw [step_idle (hport ▸ hp)] at h'
    cases h
    cases h'
    exact hs
  · have he := (step_next_iff hp).mp h
    have he' := (step_next_iff (hport ▸ hp)).mp h'
    obtain ⟨u, hu, htu⟩ := he.alike (hs.withPort rest)
    rwa [he'.unique hu]

end Sys2Proof.Machine
end

-- Proofs: which event writes which piece of the state
section
/-!
SUPPORT. The frames of commands and events, field by field (R24, R26 to R28), and the table of flag writes (R34).
-/

namespace Sys2Proof.Machine

theorem keyLenOk_iff {len : Nat} : keyLenOk len = true ↔ len = 16 ∨ len = 24 ∨ len = 32 :=
  ⟨keyLenOk_cases, fun h => by simpa [keyLenOk, or_assoc] using h⟩

theorem accepts_enc_iff {len : Nat} {s : State} : accepts (.enc len) s = true ↔ s.kv = true ∧ len ≤ 32 := by
  simp [accepts, encLenOk]

theorem accepts_dec_iff {len : Nat} {s : State} : accepts (.dec len) s = true ↔ s.kv = true ∧ len = 32 := by
  simp [accepts, decLenOk]

/-! ## The sequencer between steps (R24) -/

theorem CommandEffect.seq_idle {s t : State} {i : Instr} (h : CommandEffect s i t) (hs : s.seq = .idle) :
    t.seq = .idle := by
  cases h with
  | loadkey h => rfl
  | badKey h => exact hs
  | enc hk h => rfl
  | dec hk h => rfl
  | noKey hi hk => exact hs
  | srcLen hi hk h => exact hs

theorem EventEffect.seq_idle {s t : State} {e : PortEvent} (h : EventEffect s e t) (hs : s.seq = .idle) :
    t.seq = .idle := by
  cases h with
  | busError hr => simpa using hs
  | read hd hr hv => simpa using hs
  | writeKey j v => simpa using hs
  | writeDin j v => simpa using hs
  | command hv h => simpa using h.seq_idle hs
  | badCommand hv => simpa using hs
  | reset => simp
  | resetDuring v k => simp

/-- Settles O26: a command that starts the sequencer runs it to its end, a reset idles it, and nothing else moves it
(R24, R50). -/
theorem sequencerIsIdleBetweenCommands : Obligations.SequencerIsIdleBetweenCommands := fun _ _ hs h =>
  step_preserves (P := State.Idle) (fun _ _ h => h) (fun _ _ _ he hs => he.seq_idle hs) hs h

/-! ## `KEY` and `DIN` (R26, R27) -/

/-- No command writes `KEY` or `DIN` (R26, R27). -/
theorem CommandEffect.key_din {s t : State} {i : Instr} (h : CommandEffect s i t) :
    t.key = s.key ∧ t.din = s.din := by
  cases h <;> exact ⟨rfl, rfl⟩

/-- Settles O29: of the events that are no reset, the write of a word of `KEY` is the only one that writes `KEY`, and
the write of a word of `DIN` the only one that writes `DIN` (R26, R27, R52). -/
theorem keyAndDinChangeOnlyByHostWrites : Obligations.KeyAndDinChangeOnlyByHostWrites := by
  intro s t e rest hp h hreset
  have he := (step_next_iff hp).mp h
  cases he with
  | busError hr => exact ⟨.inl (by simp), .inl (by simp)⟩
  | read hd hr hv => exact ⟨.inl (by simp), .inl (by simp)⟩
  | writeKey j v =>
    refine ⟨.inr ⟨j, v, rfl, ?_, fun k hk => ?_⟩, .inl (by simp)⟩
    · simp [bufWord_setBufWord_same]
    · simp [bufWord_setBufWord_other _ _ _ _ hk]
  | writeDin j v =>
    refine ⟨.inl (by simp), .inr ⟨j, v, rfl, ?_, fun k hk => ?_⟩⟩
    · simp [bufWord_setBufWord_same]
    · simp [bufWord_setBufWord_other _ _ _ _ hk]
  | command hv hc =>
    obtain ⟨hkey, hdin⟩ := hc.key_din
    exact ⟨.inl (by simpa using hkey), .inl (by simpa using hdin)⟩
  | badCommand hv => exact ⟨.inl (by simp), .inl (by simp)⟩
  | reset => exact absurd (.inl rfl) hreset
  | resetDuring v k => exact absurd (.inr ⟨v, k, rfl⟩) hreset

/-! ## `DOUT` and `W` (R28, R36) -/

/-- Only an ENC or a DEC that is accepted writes `DOUT` (R28). -/
theorem CommandEffect.dout_eq_or {s t : State} {i : Instr} (h : CommandEffect s i t) :
    t.dout = s.dout ∨ s.kv = true ∧ t.err = 0#4 ∧ ((∃ len, i = .enc len ∧ len ≤ 32) ∨ i = .dec 32) := by
  cases h with
  | loadkey h => exact .inl rfl
  | badKey h => exact .inl rfl
  | enc hk h => exact .inr ⟨hk, rfl, .inl ⟨_, rfl, by simpa [encLenOk] using h⟩⟩
  | dec hk h => exact .inr ⟨hk, rfl, .inr (by simpa [decLenOk] using h)⟩
  | noKey hi hk => exact .inl rfl
  | srcLen hi hk h => exact .inl rfl

/-- Only a LOADKEY of a legal length writes `W` (R36). -/
theorem CommandEffect.w_eq_or {s t : State} {i : Instr} (h : CommandEffect s i t) :
    t.w = s.w ∨ ∃ len, i = .loadkey len ∧ (len = 16 ∨ len = 24 ∨ len = 32) := by
  cases h with
  | loadkey h => exact .inr ⟨_, rfl, keyLenOk_cases h⟩
  | badKey h => exact .inl rfl
  | enc hk h => exact .inl rfl
  | dec hk h => exact .inl rfl
  | noKey hi hk => exact .inl rfl
  | srcLen hi hk h => exact .inl rfl

/-- Settles O30: of the events that are no reset, only a command writes `DOUT` or `W` (R28, R36, R52, R123). -/
theorem doutAndScheduleChangeOnlyByCommands : Obligations.DoutAndScheduleChangeOnlyByCommands := by
  intro s t e rest hp h hreset
  have he := (step_next_iff hp).mp h
  cases he with
  | busError hr => exact ⟨.inl (by simp), .inl (by simp)⟩
  | read hd hr hv => exact ⟨.inl (by simp), .inl (by simp)⟩
  | writeKey j v => exact ⟨.inl (by simp), .inl (by simp)⟩
  | writeDin j v => exact ⟨.inl (by simp), .inl (by simp)⟩
  | @command v i t hv hc =>
    constructor
    · obtain hdout | ⟨hk, herr, ⟨len, rfl, hlen⟩ | rfl⟩ := hc.dout_eq_or
      · exact .inl (by simpa using hdout)
      · exact .inr ⟨v, len, rfl, hk, by simpa using herr, .inl ⟨hv, hlen⟩⟩
      · exact .inr ⟨v, 32, rfl, hk, by simpa using herr, .inr hv⟩
    · obtain hw | ⟨len, rfl, hlen⟩ := hc.w_eq_or
      · exact .inl (by simpa using hw)
      · exact .inr ⟨v, len, rfl, hv, hlen⟩
  | badCommand hv => exact ⟨.inl (by simp), .inl (by simp)⟩
  | reset => exact absurd (.inl rfl) hreset
  | resetDuring v k => exact absurd (.inr ⟨v, k, rfl⟩) hreset

/-! ## The flags (R34) -/

/-- The write of a command's word has that command's effect, and is acknowledged (R50, R120). -/
theorem EventEffect.of_command {s t : State} {v : Word} {i : Instr} (h : EventEffect s (.access (cmdWrite v)) t)
    (hv : decode v = .ok i) : ∃ u, CommandEffect s i u ∧ t = respond .writeAck u := by
  obtain ⟨u, -, hu⟩ := exec_effect i s
  exact ⟨u, hu, h.unique (.command hv hu)⟩

/-- The flags after an ENC or a DEC (R34, R140). -/
theorem CommandEffect.flags_of_ne_loadkey {s t : State} {i : Instr} (h : CommandEffect s i t)
    (hi : ∀ len, i ≠ .loadkey len) :
    t.kv = s.kv ∧ t.nk = s.nk ∧ (accepts i s = true → t.err = 0#4) ∧
      (¬ accepts i s = true → t.err = 2#4 ∨ t.err = 3#4) := by
  cases h with
  | loadkey h => exact absurd rfl (hi _)
  | badKey h => exact absurd rfl (hi _)
  | enc hk h => exact ⟨rfl, rfl, fun _ => rfl, fun hn => absurd (by simp [accepts, hk, h]) hn⟩
  | dec hk h => exact ⟨rfl, rfl, fun _ => rfl, fun hn => absurd (by simp [accepts, hk, h]) hn⟩
  | noKey hi' hk =>
    refine ⟨rfl, rfl, fun ha => ?_, fun _ => .inr rfl⟩
    cases i with
    | loadkey len => exact absurd rfl (hi len)
    | enc len => simp [accepts, hk] at ha
    | dec len => simp [accepts, hk] at ha
  | srcLen hi' hk h => exact ⟨rfl, rfl, fun ha => by simp [h] at ha, fun _ => .inl rfl⟩

/-- An access that does not write `CMD` leaves the flags (R34). -/
theorem EventEffect.flags_of_ne_cmdWrite {s t : State} {a : Access} (h : EventEffect s (.access a) t)
    (ha : ∀ v, a ≠ cmdWrite v) : t.kv = s.kv ∧ t.err = s.err ∧ t.nk = s.nk := by
  cases h with
  | busError hr => simp
  | read hd hr hv => simp
  | writeKey j v => simp
  | writeDin j v => simp
  | command hv h => exact absurd rfl (ha _)
  | badCommand hv => exact absurd rfl (ha _)

/-- Settles O23, row by row of the table of R34. -/
theorem flagsFollowTheEventTable : Obligations.FlagsFollowTheEventTable := by
  intro s t e rest hp h
  have he := (step_next_iff hp).mp h
  refine ⟨?reset, ?loadkey, ?badKey, ?enc, ?dec, ?badCommand, ?access⟩
  case reset =>
    rintro (rfl | ⟨v, k, rfl⟩)
    · rw [he.unique .reset]
      simp
    · rw [he.unique (.resetDuring v k)]
      simp
  case loadkey =>
    rintro v len rfl hv hlen
    rw [he.unique (.command hv (.loadkey (keyLenOk_iff.mpr hlen)))]
    exact ⟨rfl, rfl, Nat.mod_eq_of_lt (by omega)⟩
  case badKey =>
    rintro v len rfl hv hlen
    rw [he.unique (.command hv (.badKey (Bool.eq_false_iff.mpr (mt keyLenOk_iff.mp hlen))))]
    simp
  case enc =>
    rintro v len rfl hv
    obtain ⟨u, hu, rfl⟩ := he.of_command hv
    simpa [accepts_enc_iff] using hu.flags_of_ne_loadkey (by simp)
  case dec =>
    rintro v len rfl hv
    obtain ⟨u, hu, rfl⟩ := he.of_command hv
    simpa [accepts_dec_iff] using hu.flags_of_ne_loadkey (by simp)
  case badCommand =>
    rintro v b rfl hv
    rw [he.unique (.badCommand hv)]
    simp
  case access =>
    rintro a rfl ha
    exact he.flags_of_ne_cmdWrite ha

end Sys2Proof.Machine
end

-- Proofs: reads, resets, the sequencer and the placed word
section
/-!
SUPPORT. The `STATUS` word and the reads (R30, R45 to R47), what reset leaves (R41, R151), the walk of the sequencer
(R24) and the command word placed in front of the port (R29).
-/

namespace Sys2Proof.Machine

/-! ## The `STATUS` word and the reads (R30, R45) -/

/-- Fields side by side: the upper one counts `2 ^ n` times. -/
theorem toNat_append_eq_add {m n : Nat} (x : BitVec m) (y : BitVec n) :
    (x ++ y).toNat = 2 ^ n * x.toNat + y.toNat := by
  rw [BitVec.toNat_append, ← Nat.shiftLeft_add_eq_or_of_lt y.isLt, Nat.shiftLeft_eq, Nat.mul_comm]

/-- Settles O36: the fields of R30 side by side, the reserved ones zero. -/
theorem statusWordHoldsItsFields : Obligations.StatusWordHoldsItsFields := by
  intro s
  have hkv : (BitVec.ofBool s.kv).toNat = if s.kv = true then 1 else 0 := by cases s.kv <;> rfl
  rw [statusWord, toNat_append_eq_add, toNat_append_eq_add, toNat_append_eq_add, toNat_append_eq_add, hkv]
  simp only [BitVec.toNat_ofNat]
  omega

theorem readable_of_readReg {s : State} {r : Reg} {v : Word} (h : readReg s r = some v) : r.readable = true := by
  cases r with
  | cmd => cases h
  | status => rfl
  | keyW j => cases h
  | dinW j => rfl
  | doutW j => rfl

/-- A word read of a readable register answers its word and changes nothing else (R45, R46). -/
theorem step_read {s : State} {off : Offset} {r : Reg} {v : Word} {rest : List PortEvent}
    (hp : s.port = .access (readAt off) :: rest) (hr : regAt off = some r)
    (hv : readReg { s with port := rest } r = some v) :
    step s = .next { s with port := rest, responses := s.responses ++ [.readData v] } := by
  exact (step_next_iff hp).mpr (.read rfl (accessReg_readAt hr (readable_of_readReg hv)) hv)

/-- Settles O34: the offset names the register, and the read answers its word (R30, R45 to R47). -/
theorem allowedReadsReturnTheirWord : Obligations.AllowedReadsReturnTheirWord := by
  intro s rest off hp
  refine ⟨fun ho => ?_, fun j ho => ?_, fun j ho => ?_⟩
  · exact step_read hp (regAt_eq_status.mpr ho) rfl
  · exact step_read hp (regAt_eq_dinW.mpr ho) rfl
  · exact step_read hp (regAt_eq_doutW.mpr ho) rfl

/-! ## Reset (R41, R151) -/

/-- Settles O28: the reset state's fields (R41), and with `KV`, `ERR` and `NK` zero the invariants (R35). -/
theorem resetLeavesTheStatedValues : Obligations.ResetLeavesTheStatedValues := by
  refine ⟨fun i => ⟨?_, ?_, ?_⟩, rfl, rfl, rfl, rfl, ?_, ?_, rfl, ?_⟩
  · simp [State.reset]
  · simp [State.reset]
  · simp [State.reset]
  · simp [State.StatusOk, State.reset]
  · simp [State.ErrOk, State.reset]
  · intro hkv
    cases hkv

theorem statusWord_resetBlock (s : State) : statusWord (resetBlock s) = 0x00000000#32 := by
  simp [statusWord]

/-- Settles O39: the step of a reset event is `resetBlock` (R41, R151). -/
theorem resetEventSetsTheState : Obligations.ResetEventSetsTheState := by
  intro s rest hp
  refine ⟨_, (step_next_iff hp).mpr .reset, ?_⟩
  simp [State.reset, statusWord_resetBlock]

/-! ## The walk of the sequencer (R24) -/

theorem tick_seq (s : State) : (tick s).seq = s.seq.advance := by
  unfold tick
  split
  next h => rw [h]; rfl
  all_goals rfl

/-- The sequencer walks on its own: no other field of the state is read. -/
theorem ticks_seq (k : Nat) (s : State) : (ticks k s).seq = Sequencer.advance^[k] s.seq := by
  induction k generalizing s with
  | zero => rfl
  | succ k ih => rw [ticks, ih, tick_seq, Function.iterate_succ_apply]

theorem advance_iterate_encrypt {k : Nat} (hk : k < 56) : Sequencer.advance^[k] (.encrypt 0) = .encrypt k := by
  induction k with
  | zero => rfl
  | succ k ih => rw [Function.iterate_succ_apply', ih (by omega), Sequencer.advance, if_pos hk]

theorem advance_iterate_decrypt {k : Nat} (hk : k < 56) : Sequencer.advance^[k] (.decrypt 0) = .decrypt k := by
  induction k with
  | zero => rfl
  | succ k ih => rw [Function.iterate_succ_apply', ih (by omega), Sequencer.advance, if_pos hk]

/-- Settles O56: the sequencer's walk is a function of where it starts (R24). -/
theorem sequenceIgnoresKeyAndData : Obligations.SequenceIgnoresKeyAndData := by
  refine ⟨fun k s t h => ?_, fun s len k _ hk => ⟨?_, ?_⟩, fun s len => ⟨?_, ?_⟩, fun s nk hnk => ?_⟩
  · rw [ticks_seq, ticks_seq, h]
  · rw [ticks_seq, beginEncrypt_seq, advance_iterate_encrypt hk]
  · rw [ticks_seq, beginDecrypt_seq, advance_iterate_decrypt hk]
  · obtain ⟨-, -, hidle⟩ := ticks_encrypt 56 0 (beginEncrypt len s) (by omega) (by omega) (beginEncrypt_seq len s)
    exact hidle
  · obtain ⟨-, -, hidle⟩ := ticks_decrypt 56 0 (beginDecrypt s) (by omega) (by omega) (beginDecrypt_seq s)
    exact hidle
  · obtain ⟨-, -, hidle⟩ :=
      ticks_expand nk (120 - nk) nk (beginExpand nk s) (by omega) (by omega) (beginExpand_seq nk s)
    exact hidle

/-- Settles O55: the two lists, written out (R24, R107, R108, R116). -/
theorem stepListsOfTheSequencer : Obligations.StepListsOfTheSequencer := by
  refine ⟨?_, ?_, ?_, ?_, ?_⟩ <;> decide

/-! ## The placed word (R29, R120) -/

theorem decodeTableWord_eq_some {nbits w : Nat} {i : Instr} (h : decodeTableWord nbits w = some i) :
    decode (BitVec.ofNat 32 (w % 2 ^ nbits)) = .ok i := by
  unfold decodeTableWord at h
  split at h
  · split at h
    next j hj =>
      cases h
      exact hj
    next => cases h
  · cases h

/-- Settles O7: the placed word is the first event at the port, a write of a command's word to `CMD` (R29, R120). -/
theorem placedWordRunsNext : Obligations.PlacedWordRunsNext := by
  intro s nbits w i h
  obtain ⟨t, ht, he⟩ := exec_effect i s
  have hp : (s.withFetchWord nbits w).port =
      .access (cmdWrite (BitVec.ofNat 32 (w % 2 ^ nbits))) :: s.port := rfl
  exact ⟨t, ht, (step_next_iff hp).mpr (.command (decodeTableWord_eq_some h) he)⟩

end Sys2Proof.Machine
end

-- Proofs: the host window (20_memory.md)
section
/-!
SUPPORT. Which accesses the block carries out (R42, R43), what it does with the others (R44), the four bytes an allowed
write sets (R45, R47), the step of a command's write (R50, R120), and what an access that runs no command can tell of
the key (R145).
-/

namespace Sys2Proof.Machine

/-! ## The window (R42) -/

/-- Settles O31, register by register. -/
theorem windowMap : Obligations.WindowMap := fun _ =>
  ⟨regAt_eq_cmd, regAt_eq_status, fun _ => ⟨regAt_eq_keyW, regAt_eq_dinW, regAt_eq_doutW⟩⟩

/-- The offsets of the readable registers: `STATUS`, and from 0x40 on `DIN` and `DOUT` (R42). -/
theorem exists_regAt_readable_iff {off : Offset} :
    (∃ r, regAt off = some r ∧ r.readable = true) ↔
      off.toNat % 4 = 0 ∧ (off.toNat = 0x04 ∨ 0x40 ≤ off.toNat) := by
  simp only [regAt]
  split_ifs <;> simp [Reg.readable] <;> omega

/-- The offsets of the writable registers: `CMD`, and from 0x20 to 0x5C `KEY` and `DIN` (R42). -/
theorem exists_regAt_writable_iff {off : Offset} :
    (∃ r, regAt off = some r ∧ r.writable = true) ↔
      off.toNat % 4 = 0 ∧ (off.toNat = 0x00 ∨ 0x20 ≤ off.toNat ∧ off.toNat < 0x60) := by
  simp only [regAt]
  split_ifs <;> simp [Reg.writable] <;> omega

/-- `Allowed` speaks of the offset and the direction, `accessReg` of the register there (R42, R43). -/
theorem allowed_iff_accessReg {a : Access} : a.Allowed ↔ ∃ r, accessReg a = some r := by
  obtain ⟨off, size, dir⟩ := a
  cases dir with
  | read => simp [Access.Allowed, accessReg_eq_some, Reg.allows, exists_regAt_readable_iff]
  | write v => simp [Access.Allowed, accessReg_eq_some, Reg.allows, exists_regAt_writable_iff]

theorem accessReg_eq_none {a : Access} (h : ¬ a.Allowed) : accessReg a = none := by
  rw [allowed_iff_accessReg] at h
  exact Option.eq_none_iff_forall_ne_some.mpr fun r hr => h ⟨r, hr⟩

/-- A read is known by its size and its offset. -/
theorem eq_readAt {a : Access} {off : Offset} (hs : a.size = 4) (ho : a.off.toNat = off.toNat)
    (hd : a.dir = .read) : a = readAt off := by
  obtain ⟨o, n, d⟩ := a
  cases hs
  cases hd
  obtain rfl : o = off := BitVec.eq_of_toNat_eq ho
  rfl

/-- The offset of word `j` of a buffer that starts at `base` fits the window's seven bits (R42). -/
theorem toNat_bufOffset {base : Nat} (hb : base ≤ 0x60) (j : Fin 8) :
    (BitVec.ofNat 7 (base + 4 * j.val)).toNat = base + 4 * j.val := by
  rw [BitVec.toNat_ofNat, Nat.mod_eq_of_lt (by omega)]

/-- An allowed read is a read of `STATUS`, of a word of `DIN` or of a word of `DOUT` (R42, R43). -/
theorem eq_readAt_of_accessReg {a : Access} {r : Reg} (hr : accessReg a = some r) (hd : a.dir = .read) :
    a = readAt 0x04#7 ∨ ∃ j : Fin 8,
      a = readAt (BitVec.ofNat 7 (0x40 + 4 * j.val)) ∨ a = readAt (BitVec.ofNat 7 (0x60 + 4 * j.val)) := by
  obtain ⟨hs, ho, hallow⟩ := accessReg_eq_some.mp hr
  rw [hd] at hallow
  cases r with
  | cmd => cases hallow
  | keyW j => cases hallow
  | status => exact .inl (eq_readAt hs (regAt_eq_status.mp ho) hd)
  | dinW j =>
    exact .inr ⟨j, .inl (eq_readAt hs ((regAt_eq_dinW.mp ho).trans (toNat_bufOffset (by decide) j).symm) hd)⟩
  | doutW j =>
    exact .inr ⟨j, .inr (eq_readAt hs ((regAt_eq_doutW.mp ho).trans (toNat_bufOffset (by decide) j).symm) hd)⟩

/-- An allowed write is a write of `CMD`, of a word of `KEY` or of a word of `DIN` (R42, R43). -/
theorem eq_writeAt_of_accessReg {a : Access} {r : Reg} {v : Word} (hr : accessReg a = some r) (hd : a.dir = .write v) :
    a = cmdWrite v ∨ ∃ j : Fin 8,
      a = writeAt (BitVec.ofNat 7 (0x20 + 4 * j.val)) v ∨ a = writeAt (BitVec.ofNat 7 (0x40 + 4 * j.val)) v := by
  obtain ⟨-, -, hallow⟩ := accessReg_eq_some.mp hr
  rw [hd] at hallow
  cases r with
  | status => cases hallow
  | doutW j => cases hallow
  | cmd => exact .inl (eq_cmdWrite_of_accessReg hr hd)
  | keyW j => exact .inr ⟨j, .inl (eq_writeAt_of_accessReg_keyW hr hd)⟩
  | dinW j => exact .inr ⟨j, .inr (eq_writeAt_of_accessReg_dinW hr hd)⟩

/-- Settles O32: an allowed access reaches a register, and its direction and that register make it one of the list
(R42, R43). -/
theorem allowedAccessesAreTheListedOnes : Obligations.AllowedAccessesAreTheListedOnes := by
  refine ⟨fun a => ?_, fun a => allowed_iff_accessReg⟩
  rw [allowed_iff_accessReg]
  constructor
  · rintro ⟨r, hr⟩
    rcases hd : a.dir with _ | v
    · obtain h | ⟨j, h | h⟩ := eq_readAt_of_accessReg hr hd
      · exact .inl h
      · exact .inr (.inr ⟨j, .inl h⟩)
      · exact .inr (.inr ⟨j, .inr (.inl h)⟩)
    · obtain h | ⟨j, h⟩ := eq_writeAt_of_accessReg hr hd
      · exact .inr (.inl ⟨v, h⟩)
      · exact .inr (.inr ⟨j, .inr (.inr ⟨v, h⟩)⟩)
  · rintro (rfl | ⟨v, rfl⟩ | ⟨j, rfl | rfl | ⟨v, rfl | rfl⟩⟩)
    · exact ⟨_, accessReg_readAt (regAt_eq_status.mpr rfl) rfl⟩
    · exact ⟨_, accessReg_cmdWrite v⟩
    · exact ⟨_, accessReg_readAt (regAt_eq_dinW.mpr (toNat_bufOffset (by decide) j)) rfl⟩
    · exact ⟨_, accessReg_readAt (regAt_eq_doutW.mpr (toNat_bufOffset (by decide) j)) rfl⟩
    · exact ⟨_, accessReg_writeAt_keyW j v⟩
    · exact ⟨_, accessReg_writeAt_dinW j v⟩

/-! ## Bus errors (R44) -/

/-- Settles O33: an access that reaches no register is answered with the bus error of its direction (R43, R44). -/
theorem busErrorLeavesTheBlock : Obligations.BusErrorLeavesTheBlock := by
  intro s a rest hp ha
  have hstep := (step_next_iff hp).mpr (.busError (accessReg_eq_none ha))
  refine ⟨fun hd => ?_, fun v hd => ?_⟩
  · rw [hstep, hd, busError, respond]
  · rw [hstep, hd, busError, respond]

/-! ## Allowed writes (R45, R47) -/

/-- Byte `l` of the word written stands in byte `4j+l` of the buffer (R47). -/
theorem getElem_setBufWord_same (b : Block) (j : Fin 8) (v : Word) (l : Fin 4) :
    (setBufWord b j v)[4 * j.val + l.val] = byteOfWord v l := by
  rw [← byteOfWord_bufWord, bufWord_setBufWord_same]

/-- The bytes of a buffer after a write to its word `j`, by the bits of the word written (R45, R47). -/
theorem setBufWord_bytes (b : Block) (j : Fin 8) (v : Word) :
    (setBufWord b j v)[4 * j.val] = v.extractLsb' 24 8 ∧
      (setBufWord b j v)[4 * j.val + 1] = v.extractLsb' 16 8 ∧
      (setBufWord b j v)[4 * j.val + 2] = v.extractLsb' 8 8 ∧
      (setBufWord b j v)[4 * j.val + 3] = v.extractLsb' 0 8 ∧
      ∀ i : Fin 32, i.val / 4 ≠ j.val → (setBufWord b j v)[i] = b[i] :=
  ⟨getElem_setBufWord_same b j v 0, getElem_setBufWord_same b j v 1, getElem_setBufWord_same b j v 2,
    getElem_setBufWord_same b j v 3, fun i hi => by rw [getElem_setBufWord, if_neg hi]⟩

/-- Settles O35: the step is the write of the word and its acknowledgement (R45 to R47). -/
theorem allowedWritesSetTheirBytes : Obligations.AllowedWritesSetTheirBytes := by
  refine fun s rest j v => ⟨fun hp => ?_, fun hp => ?_⟩
  · obtain ⟨h0, h1, h2, h3, hother⟩ := setBufWord_bytes s.key j v
    exact ⟨_, (step_next_iff hp).mpr (.writeKey j v), h0, h1, h2, h3, hother, rfl⟩
  · obtain ⟨h0, h1, h2, h3, hother⟩ := setBufWord_bytes s.din j v
    exact ⟨_, (step_next_iff hp).mpr (.writeDin j v), h0, h1, h2, h3, hother, rfl⟩

/-! ## The write of a command word (R50, R120) -/

/-- Settles O6: the write of a command's word has the effect `exec` answers, and is acknowledged (R50, R120). -/
theorem stepRunsTheCommandWritten : Obligations.StepRunsTheCommandWritten := by
  intro s v rest i hp hv
  obtain ⟨t, ht, he⟩ := exec_effect i { s with port := rest }
  exact ⟨t, ht, (step_next_iff hp).mpr (.command hv he)⟩

/-! ## Noninterference of the bus (R145) -/

theorem State.SameToReads.port_eq {s s' : State} (h : s.SameToReads s') : s.port = s'.port := by
  obtain ⟨-, -, -, -, -, hport, -⟩ := h
  exact hport

theorem State.SameToReads.withPort {s s' : State} (h : s.SameToReads s') (rest : List PortEvent) :
    State.SameToReads { s with port := rest } { s' with port := rest } := by
  simp_all [State.SameToReads]

/-- What a read returns depends on `STATUS`, `DIN` and `DOUT` alone (R30, R47, R145). -/
theorem State.SameToReads.readReg_eq {s s' : State} (h : s.SameToReads s') (r : Reg) :
    readReg s r = readReg s' r := by
  obtain ⟨hdin, hdout, hkv, herr, hnk, -⟩ := h
  cases r <;> simp [readReg, statusWord, *]

theorem State.SameToReads.respond {s s' : State} (h : s.SameToReads s') (r : BusResponse) :
    (respond r s).SameToReads (Machine.respond r s') := by
  simpa [State.SameToReads] using h

theorem State.SameToReads.busError {s s' : State} (h : s.SameToReads s') (d : Direction) :
    (busError d s).SameToReads (Machine.busError d s') := by
  cases d with
  | read => exact h.respond _
  | write v => exact h.respond _

theorem State.SameToReads.writeKeyWord {s s' : State} (h : s.SameToReads s') (j : Fin 8) (v : Word) :
    (writeKeyWord j v s).SameToReads (Machine.writeKeyWord j v s') := by
  simpa [State.SameToReads] using h

theorem State.SameToReads.writeDinWord {s s' : State} (h : s.SameToReads s') (j : Fin 8) (v : Word) :
    (writeDinWord j v s).SameToReads (Machine.writeDinWord j v s') := by
  simp_all [State.SameToReads]

/-- An access that runs no command takes states that read the same to states that read the same (R145). -/
theorem EventEffect.sameToReads {s s' t : State} {a : Access} (h : EventEffect s (.access a) t)
    (hs : s.SameToReads s') (ha : ∀ v, a ≠ cmdWrite v) :
    ∃ t', EventEffect s' (.access a) t' ∧ t.SameToReads t' := by
  cases h with
  | busError hr => exact ⟨_, .busError hr, hs.busError _⟩
  | read hd hr hv => exact ⟨_, .read hd hr (hs.readReg_eq _ ▸ hv), hs.respond _⟩
  | writeKey j v => exact ⟨_, .writeKey j v, (hs.writeKeyWord j v).respond _⟩
  | writeDin j v => exact ⟨_, .writeDin j v, (hs.writeDinWord j v).respond _⟩
  | command hv h => exact absurd rfl (ha _)
  | badCommand hv => exact absurd rfl (ha _)

/-- Settles O37: both states deliver the access, which has one effect in each (R42, R145). -/
theorem noBusAccessReturnsKeyMaterial : Obligations.NoBusAccessReturnsKeyMaterial := by
  intro s s' t t' a rest hs hp ha h h'
  have he := (step_next_iff hp).mp h
  have he' := (step_next_iff (hs.port_eq ▸ hp)).mp h'
  obtain ⟨u, hu, htu⟩ := he.sameToReads (hs.withPort rest) ha
  rwa [he'.unique hu]

end Sys2Proof.Machine
end

-- Proofs: the encoding (30_encoding.md)
section
/-!
SUPPORT. The decoder by its four fields (R55, R59) and by the number of the word: a word is a command's if and only if
its number is `256 * len + op` (R57, R61). The word an encoder makes has that number, so decoding and encoding undo each
other, and the legal and the illegal words are told apart by arithmetic.
-/

namespace Sys2Proof.Machine

/-! ## The decoder (R55, R56, R59) -/

/-- An opcode selects the command that has it, with the operand as it is (R56, R57). -/
theorem opCommand_eq_some {op : BitVec 4} {len : Nat} {i : Instr} :
    opCommand op len = some i ↔ op = i.op ∧ len = i.len := by
  unfold opCommand
  cases i with
  | loadkey n => split_ifs <;> simp_all [Instr.op, Instr.len]
  | enc n => split_ifs <;> simp_all [Instr.op, Instr.len]
  | dec n => split_ifs <;> simp_all [Instr.op, Instr.len]

/-- A word decodes to a command just when the reserved fields are zero and the other two are the command's (R59). -/
theorem decode_eq_ok_iff_fields {v : Word} {i : Instr} :
    decode v = .ok i ↔
      fieldRsv1 v = 0#16 ∧ fieldRsv0 v = 0#4 ∧ fieldOp v = i.op ∧ (fieldLen v).toNat = i.len := by
  rw [← opCommand_eq_some]
  unfold decode
  split_ifs with h1 h0
  · simp [h1]
  · simp [h0]
  · cases opCommand (fieldOp v) (fieldLen v).toNat <;> simp_all

/-- The same by the number of the word: `LEN` counts 256 times and `OP` once (R55, R61). -/
theorem decode_eq_ok_iff {v : Word} {i : Instr} :
    decode v = .ok i ↔ i.len ≤ 255 ∧ v.toNat = 256 * i.len + i.op.toNat := by
  have hv := v.isLt
  have hop := i.op.isLt
  rw [decode_eq_ok_iff_fields]
  simp only [fieldRsv1, fieldRsv0, fieldOp, fieldLen, ← BitVec.toNat_inj, BitVec.extractLsb'_toNat,
    Nat.shiftRight_eq_div_pow, BitVec.toNat_ofNat]
  omega

/-- Where the reserved fields are zero, a command's opcode in `OP` decodes to that command of length `LEN` (R59). -/
theorem decode_eq_ok_of_fields {v : Word} {i : Instr} (h1 : v.toNat / 2 ^ 16 = 0) (h0 : v.toNat / 2 ^ 4 % 2 ^ 4 = 0)
    (hop : v.toNat % 2 ^ 4 = i.op.toNat) (hlen : i.len = v.toNat / 2 ^ 8 % 2 ^ 8) : decode v = .ok i :=
  decode_eq_ok_iff.mpr (by omega)

/-- The legal words by the numbers of their fields (R59, R60). -/
theorem exists_decode_eq_ok_iff {v : Word} :
    (∃ i, decode v = .ok i) ↔
      v.toNat / 2 ^ 16 = 0 ∧ v.toNat / 2 ^ 4 % 2 ^ 4 = 0 ∧
        (v.toNat % 2 ^ 4 = 1 ∨ v.toNat % 2 ^ 4 = 2 ∨ v.toNat % 2 ^ 4 = 3) := by
  constructor
  · rintro ⟨i, hi⟩
    obtain ⟨hlen, hv⟩ := decode_eq_ok_iff.mp hi
    have hop : i.op.toNat = 1 ∨ i.op.toNat = 2 ∨ i.op.toNat = 3 := by cases i <;> simp [Instr.op]
    omega
  · rintro ⟨h1, h0, hop | hop | hop⟩
    · exact ⟨.loadkey _, decode_eq_ok_of_fields h1 h0 hop rfl⟩
    · exact ⟨.enc _, decode_eq_ok_of_fields h1 h0 hop rfl⟩
    · exact ⟨.dec _, decode_eq_ok_of_fields h1 h0 hop rfl⟩

/-- The illegal words by the numbers of their fields: decoding is total, so they are all the others (R59, R60). -/
theorem exists_decode_eq_error_iff {v : Word} :
    (∃ b, decode v = .error b) ↔
      v.toNat / 2 ^ 16 ≠ 0 ∨ v.toNat / 2 ^ 4 % 2 ^ 4 ≠ 0 ∨ v.toNat % 2 ^ 4 = 0 ∨ 4 ≤ v.toNat % 2 ^ 4 := by
  have htotal : (∃ b, decode v = .error b) ↔ ¬ ∃ i, decode v = .ok i := by cases decode v <;> simp
  rw [htotal, exists_decode_eq_ok_iff]
  omega

/-! ## Encoding and decoding (R55, R57) -/

/-- The number of a command's word: the length counts modulo 256 (R55). -/
theorem toNat_encode (i : Instr) : (encode i).toNat = 256 * (i.len % 256) + i.op.toNat := by
  rw [encode, toNat_append_eq_add, toNat_append_eq_add, toNat_append_eq_add]
  simp only [BitVec.toNat_ofNat]
  omega

theorem wf_iff {i : Instr} : i.wf = true ↔ i.len ≤ 255 := by
  rw [Instr.wf, decide_eq_true_iff]

/-- Settles O1: the number of the word is that of the command, whose length fits `LEN` (R55 to R57). -/
theorem decodeOfEncodeIsTheCommand : Obligations.DecodeOfEncodeIsTheCommand := by
  intro i hi
  have hlen : i.len ≤ 255 := wf_iff.mp hi
  refine decode_eq_ok_iff.mpr ⟨hlen, ?_⟩
  rw [toNat_encode, Nat.mod_eq_of_lt (by omega)]

/-- Settles O2: both words have the number of the command (R55, R57, R59). -/
theorem encodeOfDecodeIsTheWord : Obligations.EncodeOfDecodeIsTheWord := by
  intro v i h
  obtain ⟨hlen, hv⟩ := decode_eq_ok_iff.mp h
  refine ⟨wf_iff.mpr hlen, BitVec.eq_of_toNat_eq ?_⟩
  rw [toNat_encode, hv, Nat.mod_eq_of_lt (by omega)]

/-! ## The legal and the illegal words (R59 to R61, R66) -/

/-- Settles O3: an opcode of 1 to 3 is its command's, and every word of the other clauses is illegal (R59). -/
theorem decodeFollowsTheFields : Obligations.DecodeFollowsTheFields := by
  refine fun v => ⟨fun h => ?_, fun h1 h0 => ⟨fun hop => ?_, fun hop => ?_, fun hop => ?_, fun hop => ?_⟩⟩
  · exact exists_decode_eq_error_iff.mpr (or_assoc.mp (.inl h))
  · exact decode_eq_ok_of_fields h1 h0 hop rfl
  · exact decode_eq_ok_of_fields h1 h0 hop rfl
  · exact decode_eq_ok_of_fields h1 h0 hop rfl
  · exact exists_decode_eq_error_iff.mpr (.inr (.inr hop))

/-- Settles O4: the byte is the command's length, and the number beside it its opcode (R61). -/
theorem legalWordsAreThreeTimes256 : Obligations.LegalWordsAreThreeTimes256 := by
  intro v
  constructor
  · rintro ⟨i, hi⟩
    obtain ⟨hlen, hv⟩ := decode_eq_ok_iff.mp hi
    refine ⟨BitVec.ofNat 8 i.len, ?_⟩
    rw [BitVec.toNat_ofNat, Nat.mod_eq_of_lt (by omega)]
    cases i with
    | loadkey len => exact .inl hv
    | enc len => exact .inr (.inl hv)
    | dec len => exact .inr (.inr hv)
  · rintro ⟨ll, h | h | h⟩
    · exact ⟨.loadkey ll.toNat, decode_eq_ok_iff.mpr ⟨Nat.le_of_lt_succ ll.isLt, h⟩⟩
    · exact ⟨.enc ll.toNat, decode_eq_ok_iff.mpr ⟨Nat.le_of_lt_succ ll.isLt, h⟩⟩
    · exact ⟨.dec ll.toNat, decode_eq_ok_iff.mpr ⟨Nat.le_of_lt_succ ll.isLt, h⟩⟩

/-- Settles O5: the lines and words of the table are fixed values, and a LOADKEY of 33 bytes is rejected (R66). -/
theorem tabledCommandWordsDecode : Obligations.TabledCommandWordsDecode :=
  ⟨⟨rfl, by decide⟩, ⟨rfl, by decide⟩, ⟨rfl, by decide⟩, ⟨rfl, by decide, execLoadkey_rejected _ rfl⟩,
    ⟨rfl, by decide⟩, ⟨rfl, by decide⟩, ⟨rfl, by decide⟩, ⟨rfl, by decide⟩,
    ⟨rfl, by decide⟩, ⟨rfl, by decide⟩, ⟨rfl, by decide⟩, ⟨rfl, by decide⟩⟩

/-- Settles O10: a word that decodes to no command only sets `ERR`, and the write is acknowledged (R60, R131). -/
theorem illegalWordOnlySetsErr : Obligations.IllegalWordOnlySetsErr := by
  refine ⟨fun s v rest hp hv => ?_, fun v => exists_decode_eq_error_iff.mp, .opcode, by decide⟩
  obtain ⟨b, hb⟩ := exists_decode_eq_error_iff.mpr hv
  exact (step_next_iff hp).mpr (.badCommand hb)

end Sys2Proof.Machine
end

-- Proofs: the host assembly lines (30_encoding.md R65)
section
/-!
SUPPORT. A run whose port holds one event for each element of a list is a fold over that list. The lines `SETKEY`,
`SETDIN` and `GETDOUT` are such runs over the eight words of a buffer (R63, R65).
-/

namespace Sys2Proof.Machine

/-! ## Runs over a list of events (R50, R51) -/

theorem run_succ {k : Nat} {s t : State} (h : step s = .next t) :
    Host.Core.run core (k + 1) s = Host.Core.run core k t := by
  have hstep : core.step s = .next t := h
  simp only [Host.Core.run, hstep]

/-- Let `u b` be the block whose varying part is `b`. Where event `e a`, at any state of the port, takes part `b` to
`f b a` with response `r a`, a list of such events folds `f` over it and gives their responses in order (R50, R51). -/
theorem run_map {α β : Type} {e : α → PortEvent} (u : β → State) (f : β → α → β) (r : α → BusResponse)
    (heffect : ∀ a b rest rs, EventEffect { u b with port := rest, responses := rs } (e a)
      (respond (r a) { u (f b a) with port := rest, responses := rs }))
    (l : List α) (b : β) (rs : List BusResponse) :
    Host.Core.run core l.length { u b with port := l.map e, responses := rs } =
      .next { u (l.foldl f b) with port := [], responses := rs ++ l.map r } := by
  induction l generalizing b rs with
  | nil => rw [List.map_nil, List.map_nil, List.append_nil]; rfl
  | cons a l ih =>
    have hstep : step { u b with port := e a :: l.map e, responses := rs } =
        .next { u (f b a) with port := l.map e, responses := rs ++ [r a] } :=
      (step_next_iff rfl).mpr (heffect a b _ rs)
    rw [List.length_cons, List.map_cons, run_succ hstep, ih, List.append_assoc]
    rfl

/-! ## The lines `SETKEY`, `SETDIN` and `GETDOUT` (R65) -/

theorem withAccesses_eq {s : State} (hs : s.port = []) (as : List Access) :
    s.withAccesses as = { s with port := as.map .access } := by
  rw [State.withAccesses, hs, List.nil_append]

theorem run_fillBuffer_key {s : State} (hs : s.port = []) (p : Block) :
    Host.Core.run core 8 (s.withAccesses (fillBuffer 0x20#7 p)) =
      .next { s with key := p, responses := s.responses ++ List.replicate 8 .writeAck } := by
  have hrun := run_map (fun b => { s with key := b }) (fun b j => setBufWord b j (bufWord p j)) (fun _ => .writeAck)
    (fun j _ _ _ => .writeKey j (bufWord p j)) (List.finRange 8) s.key s.responses
  rw [setBufWord_all] at hrun
  simpa [withAccesses_eq hs, hs, fillBuffer, BitVec.ofNat_add, Function.comp_def] using hrun

theorem run_fillBuffer_din {s : State} (hs : s.port = []) (p : Block) :
    Host.Core.run core 8 (s.withAccesses (fillBuffer 0x40#7 p)) =
      .next { s with din := p, responses := s.responses ++ List.replicate 8 .writeAck } := by
  have hrun := run_map (fun b => { s with din := b }) (fun b j => setBufWord b j (bufWord p j)) (fun _ => .writeAck)
    (fun j _ _ _ => .writeDin j (bufWord p j)) (List.finRange 8) s.din s.responses
  rw [setBufWord_all] at hrun
  simpa [withAccesses_eq hs, hs, fillBuffer, BitVec.ofNat_add, Function.comp_def] using hrun

/-- The eight reads vary no part of the block. -/
theorem run_getdout {s : State} (hs : s.port = []) :
    Host.Core.run core 8 (s.withAccesses AsmLine.getdout.expand) =
      .next { s with responses := s.responses ++ (List.finRange 8).map fun j => .readData (bufWord s.dout j) } := by
  have hrun := run_map (fun _ : Unit => s) (fun _ _ => ()) (fun j => .readData (bufWord s.dout j))
    (fun j _ _ _ => .read rfl (accessReg_readAt (regAt_eq_doutW.mpr (toNat_bufOffset (by decide) j)) rfl) rfl)
    (List.finRange 8) () s.responses
  simpa [withAccesses_eq hs, hs, AsmLine.expand, BitVec.ofNat_add, Function.comp_def] using hrun

/-- Settles O58, line by line (R65). -/
theorem pseudoLinesFillAndRead : Obligations.PseudoLinesFillAndRead := fun _ d hs _ =>
  ⟨run_fillBuffer_key hs (padData d), run_fillBuffer_din hs (padData d), run_getdout hs⟩

end Sys2Proof.Machine
end

-- Proofs: arithmetic in GF(2^8) (40_gf_arith.md)
section
/-!
SUPPORT. A product is the sum of the doublings of one factor at the bits of the other (R69), and the product by `2^k` is
`k` doublings from either side. A law for all bytes then holds because both its sides are additive (R70). Inverses
exist because every nonzero byte to the power 255 is 1; `ginv` finds them (R72), and they exclude zero divisors.
Doubling is the product by 2, so it can be undone (R68).
-/

namespace Sys2Proof.Machine

/-! ## The product as a sum of doublings (R69) -/

/-- Before bit `i`, the multiplicand has been doubled `i` times. -/
theorem gmulLoop_eq_foldl (a b : Byte) (n : Nat) : ∀ (i : Nat) (p : Byte),
    gmulLoop b n i (xtime^[i] a) p =
      (List.range' i n).foldl (fun p i => if b.getLsbD i then p ^^^ xtime^[i] a else p) p := by
  induction n with
  | zero => intro i p; rfl
  | succ n ih =>
    intro i p
    rw [gmulLoop, ← Function.iterate_succ_apply' xtime, ih, List.range'_succ, List.foldl_cons]

/-- Settles O42: the loop over the bits from 0 on is a fold (R69). -/
theorem gmulSumsDoublings : Obligations.GmulSumsDoublings := by
  intro a b
  rw [List.range_eq_range']
  exact gmulLoop_eq_foldl a b 8 0 0x00#8

/-! ## Products by powers of two (R68, R71) -/

theorem gmulLoop_xtime (b : Byte) (n : Nat) : ∀ (i : Nat) (a p : Byte),
    gmulLoop b n i (xtime a) (xtime p) = xtime (gmulLoop b n i a p) := by
  induction n with
  | zero => intro i a p; rfl
  | succ n ih =>
    intro i a p
    simp only [gmulLoop]
    rw [← ih, apply_ite xtime, xtime_xor]

theorem gmul_xtime_left (a b : Byte) : gmul (xtime a) b = xtime (gmul a b) := by
  rw [gmul, gmul, ← gmulLoop_xtime, xtime_zero]

theorem gmul_iterate_xtime_left (k : Nat) (a b : Byte) : gmul (xtime^[k] a) b = xtime^[k] (gmul a b) :=
  Function.Semiconj.iterate_right (f := (gmul · b)) (fun a => gmul_xtime_left a b) k a

theorem iterate_xtime_one (k : Fin 8) : xtime^[k.val] 0x01#8 = 1#8 <<< k.val := by
  decide +revert +kernel

theorem gmul_twoPow_right (a : Byte) (k : Fin 8) : gmul a (1#8 <<< k.val) = xtime^[k.val] a := by
  fin_cases k <;> simp [gmul, gmulLoop]

theorem gmul_one_left (a : Byte) : gmul 0x01#8 a = a := by
  refine additive_ext (g := id) (gmul_xor_right _) (fun _ _ => rfl) (fun k => ?_) a
  rw [gmul_twoPow_right, iterate_xtime_one, id]

theorem gmul_twoPow_left (k : Fin 8) (a : Byte) : gmul (1#8 <<< k.val) a = xtime^[k.val] a := by
  rw [← iterate_xtime_one, gmul_iterate_xtime_left, gmul_one_left]

/-! ## The laws of the ring (R70) -/

theorem gmul_comm (a b : Byte) : gmul a b = gmul b a := by
  refine additive_ext (g := (gmul · a)) (gmul_xor_right a) (fun b b' => gmul_xor_left b b' a) (fun k => ?_) b
  rw [gmul_twoPow_right, gmul_twoPow_left]

theorem gmul_assoc (a b c : Byte) : gmul (gmul a b) c = gmul a (gmul b c) := by
  refine additive_ext (f := fun a => gmul (gmul a b) c) (g := (gmul · (gmul b c)))
    (fun a a' => ?_) (fun a a' => gmul_xor_left a a' (gmul b c)) (fun k => ?_) a
  · rw [gmul_xor_left, gmul_xor_left]
  · rw [gmul_twoPow_left, gmul_iterate_xtime_left, gmul_twoPow_left]

theorem gmul_left_comm (a b c : Byte) : gmul a (gmul b c) = gmul b (gmul a c) := by
  rw [← gmul_assoc, gmul_comm a b, gmul_assoc]

theorem gmul_one_right (a : Byte) : gmul a 0x01#8 = a := by
  rw [gmul_comm, gmul_one_left]

/-! ## Powers: squaring is additive, and eight squarings change nothing -/

def square (a : Byte) : Byte := gmul a a

theorem square_xor (a b : Byte) : square (a ^^^ b) = square a ^^^ square b := by
  simp only [square, gmul_xor_left, gmul_xor_right, gmul_comm b a, BitVec.xor_assoc, xor_cancel]

theorem iterate_square_xor (n : Nat) (a b : Byte) : square^[n] (a ^^^ b) = square^[n] a ^^^ square^[n] b := by
  induction n with
  | zero => rfl
  | succ n ih => simp only [Function.iterate_succ_apply', ih, square_xor]

/-- `x` to the power 256 is `x`. -/
theorem iterate_square_eight (x : Byte) : square^[8] x = x :=
  additive_ext (g := id) (iterate_square_xor 8) (fun _ _ => rfl) (by decide +kernel) x

/-- 0 and 1 are the only idempotents, which tells a field from a product of fields. -/
theorem eq_zero_or_one_of_square_eq {e : Byte} (h : square e = e) : e = 0x00#8 ∨ e = 0x01#8 := by
  revert e
  decide +kernel

/-- `x` to the power `2^n - 1`: `n` times square and multiply by `x`. -/
def allOnesPower (x : Byte) : Nat → Byte
  | 0 => 0x01#8
  | n + 1 => gmul x (square (allOnesPower x n))

theorem gmul_allOnesPower (x : Byte) (n : Nat) : gmul x (allOnesPower x n) = square^[n] x := by
  induction n with
  | zero => exact gmul_one_right x
  | succ n ih =>
    rw [Function.iterate_succ_apply', ← ih]
    simp only [allOnesPower, square, gmul_assoc, gmul_left_comm]

/-- `x` to the power 255 squares to itself, and it is not 0 because `x` times it is `x`. -/
theorem allOnesPower_eight {x : Byte} (hx : x ≠ 0x00#8) : allOnesPower x 8 = 0x01#8 := by
  have hfix : gmul x (allOnesPower x 8) = x := by
    rw [gmul_allOnesPower, iterate_square_eight]
  have hsquare : square (allOnesPower x 8) = allOnesPower x 8 := by
    calc square (allOnesPower x 8)
      _ = gmul (square (allOnesPower x 7)) (gmul x (allOnesPower x 8)) := by
        rw [square, ← gmul_assoc, gmul_comm (square _) x]; rfl
      _ = allOnesPower x 8 := by
        rw [hfix, gmul_comm]; rfl
  refine (eq_zero_or_one_of_square_eq hsquare).resolve_left fun hzero => hx ?_
  rw [← hfix, hzero, gmul_zero_right]

/-! ## Inverses (R72) -/

theorem mem_allBytes (x : Byte) : x ∈ allBytes :=
  List.mem_map.mpr ⟨x.toNat, List.mem_range.mpr x.isLt, by simp⟩

/-- The search of `ginv` succeeds, as the power 254 is an inverse. -/
theorem gmul_ginv {x : Byte} (hx : x ≠ 0x00#8) : gmul x (ginv x) = 0x01#8 := by
  rw [ginv, if_neg hx]
  cases hfind : allBytes.find? fun y => gmul x y = 0x01#8 with
  | some y => simpa using List.find?_some hfind
  | none =>
    have hnone := List.find?_eq_none.mp hfind (square (allOnesPower x 7)) (mem_allBytes _)
    exact absurd (decide_eq_true (allOnesPower_eight hx)) hnone

theorem ginv_zero : ginv 0x00#8 = 0x00#8 := by
  rw [ginv, if_pos rfl]

theorem gmul_left_cancel {x y z : Byte} (hx : x ≠ 0x00#8) (h : gmul x y = gmul x z) : y = z := by
  have hcancel (y : Byte) : gmul (ginv x) (gmul x y) = y := by
    rw [← gmul_assoc, gmul_comm (ginv x), gmul_ginv hx, gmul_one_left]
  rw [← hcancel y, h, hcancel]

theorem gmul_eq_one_iff {x y : Byte} (hx : x ≠ 0x00#8) : gmul x y = 0x01#8 ↔ y = ginv x := by
  refine ⟨fun h => gmul_left_cancel hx (h.trans (gmul_ginv hx).symm), ?_⟩
  rintro rfl
  exact gmul_ginv hx

theorem ginv_ne_zero {x : Byte} (hx : x ≠ 0x00#8) : ginv x ≠ 0x00#8 := by
  intro h
  have hone := gmul_ginv hx
  rw [h, gmul_zero_right] at hone
  exact absurd hone (by decide)

theorem ginv_ginv (x : Byte) : ginv (ginv x) = x := by
  by_cases hx : x = 0x00#8
  · rw [hx, ginv_zero, ginv_zero]
  · refine ((gmul_eq_one_iff (ginv_ne_zero hx)).mp ?_).symm
    rw [gmul_comm, gmul_ginv hx]

theorem eq_zero_of_gmul_eq_zero {a b : Byte} (h : gmul a b = 0x00#8) : a = 0x00#8 ∨ b = 0x00#8 :=
  or_iff_not_imp_left.mpr fun ha => gmul_left_cancel ha (h.trans (gmul_zero_right a).symm)

/-- Settles O43: a factor that is not 0 can be cancelled, so there are no zero divisors (R70). -/
theorem gmulFieldLaws : Obligations.GmulFieldLaws :=
  ⟨gmul_comm, gmul_assoc, gmul_xor_right, fun a => ⟨gmul_one_right a, gmul_one_left a⟩,
    fun a => ⟨gmul_zero_right a, gmul_zero_left a⟩, fun _ _ => eq_zero_of_gmul_eq_zero⟩

/-- Settles O45: an inverse is unique, so the listed values are those whose product is 1 (R72). -/
theorem ginvIsTheInverse : Obligations.GinvIsTheInverse := by
  refine ⟨ginv_zero, ?_, ?_, fun x y => gmul_eq_one_iff, ginv_ginv⟩
  · exact ((gmul_eq_one_iff (by decide)).mp (gmul_one_left _)).symm
  · have h : gmul 0x53#8 0xCA#8 = 0x01#8 := by decide +kernel
    exact ((gmul_eq_one_iff (by decide)).mp h).symm

/-! ## Doubling (R68) and the constants of the datapath (R71) -/

theorem gmul_two_left (a : Byte) : gmul 0x02#8 a = xtime a := gmul_twoPow_left 1 a

/-- Settles O44: each constant is a sum of powers of two, and `gmul` distributes over it (R71). -/
theorem constantProducts : Obligations.ConstantProducts := by
  intro a
  have h1 : gmul 0x01 a = a := gmul_one_left a
  have h2 : gmul 0x02 a = xtime a := gmul_two_left a
  have h4 : gmul 0x04 a = xtime (xtime a) := gmul_twoPow_left 2 a
  have h8 : gmul 0x08 a = xtime (xtime (xtime a)) := gmul_twoPow_left 3 a
  have h3 : gmul 0x03 a = gmul 0x02 a ^^^ gmul 0x01 a := gmul_xor_left 0x02 0x01 a
  have h9 : gmul 0x09 a = gmul 0x08 a ^^^ gmul 0x01 a := gmul_xor_left 0x08 0x01 a
  have hB : gmul 0x0B a = gmul 0x08 a ^^^ gmul 0x03 a := gmul_xor_left 0x08 0x03 a
  have hC : gmul 0x0C a = gmul 0x08 a ^^^ gmul 0x04 a := gmul_xor_left 0x08 0x04 a
  have hD : gmul 0x0D a = gmul 0x0C a ^^^ gmul 0x01 a := gmul_xor_left 0x0C 0x01 a
  have hE : gmul 0x0E a = gmul 0x0C a ^^^ gmul 0x02 a := gmul_xor_left 0x0C 0x02 a
  simp only [h1, h2, h3, h4, h8, h9, hB, hC, hD, hE, BitVec.xor_assoc, and_self]

/-- When bit 8 comes up in a doubled byte, it comes up in 0x11B too, so their sum is a byte again (R68). -/
theorem xor_0x11B_lt {n : Nat} (h : 256 ≤ n) (h' : n < 512) : n ^^^ 0x11B < 256 := by
  have hdiv : (n ^^^ 0x11B) / 2 ^ 8 = n / 2 ^ 8 ^^^ 0x11B / 2 ^ 8 := Nat.xor_div_two_pow
  rw [show n / 2 ^ 8 = 1 by omega, show 1 ^^^ 0x11B / 2 ^ 8 = 0 by decide] at hdiv
  omega

theorem toNat_xtime (b : Byte) :
    (xtime b).toNat = if 2 * b.toNat < 256 then 2 * b.toNat else (2 * b.toNat) ^^^ 0x11B := by
  have hb := b.isLt
  have ht : (b.zeroExtend 9 <<< 1).toNat = 2 * b.toNat := by
    rw [BitVec.toNat_shiftLeft, BitVec.toNat_setWidth, Nat.shiftLeft_eq]
    omega
  have hbit : (b.zeroExtend 9 <<< 1).getLsbD 8 = decide (¬ 2 * b.toNat < 256) := by
    rw [← BitVec.testBit_toNat, ht, Nat.testBit_eq_decide_div_mod_eq, decide_eq_decide]
    omega
  simp only [xtime, hbit, decide_eq_true_eq, ite_not]
  split_ifs with h
  · rw [BitVec.extractLsb'_toNat, ht, Nat.shiftRight_zero, Nat.mod_eq_of_lt h]
  · rw [BitVec.extractLsb'_toNat, BitVec.toNat_xor, ht]
    exact Nat.mod_eq_of_lt (xor_0x11B_lt (by omega) (by omega))

theorem shiftLeft_one_eq_zero {b : Byte} (h : b <<< 1 = 0x00#8) : b = 0x00#8 ∨ b = 0x80#8 := by
  have h' := congrArg BitVec.toNat h
  simp only [BitVec.toNat_shiftLeft, Nat.shiftLeft_eq, BitVec.toNat_ofNat] at h'
  rw [← BitVec.toNat_inj, ← BitVec.toNat_inj, BitVec.toNat_ofNat, BitVec.toNat_ofNat]
  omega

/-- Doubling is the product by 2, which can be cancelled. -/
theorem xtime_injective : Function.Injective xtime := by
  intro a b h
  rw [← gmul_two_left, ← gmul_two_left] at h
  exact gmul_left_cancel (by decide) h

/-- Settles O41: `xtime` loses no byte, though the shift by itself takes 0x80 to 0 as well (R68). -/
theorem xtimeDoublesModulo0x11B : Obligations.XtimeDoublesModulo0x11B :=
  ⟨toNat_xtime, xtime_eq, xtime_injective, xtime_zero, by decide, fun _ => shiftLeft_one_eq_zero,
    by decide, by decide, by decide⟩

end Sys2Proof.Machine
end

-- Proofs: the substitution tables (41_sbox.md)
section
/-!
SUPPORT. The affine transform has an inverse, by the algebra of rotations (R75, R76). Four facts are read off the ROMs
entry by entry, as R81 asks of a model built from the printed tables: the affine transform taken back from `SBOX[x]`
leaves an inverse of `x`, `INVSBOX` undoes `SBOX`, and no byte is fixed or complemented. The closed forms of both tables
and the other law of R81 follow.
-/

namespace Sys2Proof.Machine

/-! ## Rotations and the inverse of the affine transform (R75, R76, R79) -/

theorem rotl8_xor (a b : Byte) (n : Nat) : rotl8 (a ^^^ b) n = rotl8 a n ^^^ rotl8 b n := by
  ext i hi
  simp only [rotl8, BitVec.getElem_rotateLeft, BitVec.getElem_xor]
  split <;> rfl

theorem rotl8_rotl8 (b : Byte) (m n : Nat) : rotl8 (rotl8 b m) n = rotl8 b ((m + n) % 8) := by
  ext i hi
  simp only [rotl8, BitVec.getElem_rotateLeft]
  split_ifs <;> (congr 1; omega)

theorem rotl8_zero (b : Byte) : rotl8 b 0 = b := by
  ext i hi
  simp [rotl8, BitVec.getElem_rotateLeft]

/-- The bracketed expression of R79. -/
def affineInv (y : Byte) : Byte := rotl8 y 1 ^^^ rotl8 y 3 ^^^ rotl8 y 6 ^^^ 0x05#8

/-- Of the 15 rotations of `y` in the sum only `y` itself stands once; each of the other seven stands twice. -/
theorem affine_affineInv (y : Byte) : affine (affineInv y) = y := by
  have hconst : affine 0x05#8 = 0x00#8 := by decide
  calc affine (affineInv y)
    _ = affine 0x05#8 ^^^ y := by
      simp only [affine, affineInv, rotl8_xor, rotl8_rotl8, Nat.reduceAdd, Nat.reduceMod, rotl8_zero]
      ac_nf
      simp only [xor_cancel]
    _ = y := by rw [hconst, BitVec.zero_xor]

/-! ## What the ROMs hold, entry by entry (R78, R80) -/

theorem gmul_affineInv_sbox : ∀ x : Byte, x ≠ 0x00#8 → gmul x (affineInv (sbox x)) = 0x01#8 := by
  decide +kernel

theorem invSbox_sbox : ∀ x : Byte, invSbox (sbox x) = x := by
  decide +kernel

theorem sbox_ne_self : ∀ x : Byte, sbox x ≠ x := by
  decide +kernel

theorem sbox_ne_complement : ∀ x : Byte, sbox x ≠ x ^^^ 0xFF#8 := by
  decide +kernel

/-! ## The closed forms and the laws (R77, R79, R81) -/

theorem affineInv_sbox (x : Byte) : affineInv (sbox x) = ginv x := by
  by_cases hx : x = 0x00#8
  · rw [hx, ginv_zero]
    decide
  · exact (gmul_eq_one_iff hx).mp (gmul_affineInv_sbox x hx)

theorem sbox_eq_affine_ginv (x : Byte) : sbox x = affine (ginv x) := by
  rw [← affineInv_sbox, affine_affineInv]

theorem sbox_ginv_affineInv (y : Byte) : sbox (ginv (affineInv y)) = y := by
  rw [sbox_eq_affine_ginv, ginv_ginv, affine_affineInv]

theorem invSbox_eq_ginv_affineInv (y : Byte) : invSbox y = ginv (affineInv y) := by
  rw [← invSbox_sbox (ginv (affineInv y)), sbox_ginv_affineInv]

theorem sbox_invSbox (y : Byte) : sbox (invSbox y) = y := by
  rw [invSbox_eq_ginv_affineInv, sbox_ginv_affineInv]

/-- A byte that `INVSBOX` fixed would be fixed by `SBOX`. -/
theorem invSbox_ne_self (y : Byte) : invSbox y ≠ y := by
  intro h
  have hfix := sbox_invSbox y
  rw [h] at hfix
  exact sbox_ne_self y hfix

/-- Settles O46: the affine transform, taken back from an entry of the ROM, leaves the inverse (R76, R77). -/
theorem sboxIsAffineOfTheInverse : Obligations.SboxIsAffineOfTheInverse :=
  ⟨sbox_eq_affine_ginv, by decide, by decide, fun x => ⟨sbox_ne_self x, sbox_ne_complement x⟩⟩

/-- Settles O47: `INVSBOX` undoes `SBOX`, so its closed form is the inverse of `SBOX`'s (R79, R81). -/
theorem sboxesAreInverse : Obligations.SboxesAreInverse :=
  ⟨fun x => ⟨invSbox_sbox x, sbox_invSbox x⟩, invSbox_eq_ginv_affineInv, invSbox_ne_self⟩

end Sys2Proof.Machine
end

-- Proofs: the key schedule (42_key_schedule.md)
section
/-!
SUPPORT. The first words of the expansion are the key's, and they depend on no other byte of the buffer; the recurrence
is `scheduleExpanded_expandKey`. A word operation is computed on the byte tuple of its word. Each list of R93 is an
arithmetic progression.
-/

namespace Sys2Proof.Machine

/-! ## The word operations and the round constants (R87 to R91) -/

theorem rotWord_wordOfBytes (a b c d : Byte) : rotWord (wordOfBytes a b c d) = wordOfBytes b c d a := by
  apply BitVec.eq_of_getLsbD_eq
  intro i hi
  simp only [rotWord, BitVec.getLsbD_rotateLeft, getLsbD_wordOfBytes, Nat.sub_sub]
  by_cases h8 : i < 8
  · simp [h8, show ¬ 24 + i < 8 by omega, show ¬ 24 + i < 16 by omega]
  · simp [h8, hi, show i - 8 < 8 ↔ i < 16 by omega, show i - 8 < 16 ↔ i < 24 by omega, show i - 8 < 24 by omega]

theorem subWord_wordOfBytes (a b c d : Byte) :
    subWord (wordOfBytes a b c d) = wordOfBytes (sbox a) (sbox b) (sbox c) (sbox d) := by
  simp only [subWord, byteOfWord_wordOfBytes]
  rfl

/-- On byte tuples it does not matter whether the bytes are first moved and then substituted (R88). -/
theorem subWord_rotWord (w : Word) : subWord (rotWord w) = rotWord (subWord w) := by
  rw [← wordOfBytes_byteOfWord w]
  simp only [rotWord_wordOfBytes, subWord_wordOfBytes]

/-- The values of R91 are those of R89, entry by entry. -/
theorem rc_recurrence : ∀ j < 30, 1 < j → rc j = xtime (rc (j - 1)) := by
  decide

/-- Settles O48: the word operations on byte tuples, and the table of R91 entry by entry. -/
theorem wordOperationsAndRoundConstants : Obligations.WordOperationsAndRoundConstants :=
  ⟨fun a b c d => ⟨rotWord_wordOfBytes a b c d, subWord_wordOfBytes a b c d⟩, subWord_rotWord, rfl,
    fun j h1 h29 => rc_recurrence j (Nat.lt_succ_of_le h29) h1, fun _ => rfl⟩

/-! ## The words of the expansion (R86, R92) -/

/-- The recurrence leaves the key's words as they were packed (R86). -/
theorem getElem_expandKey_of_lt {nk : Nat} (h : nk ≤ 120) (key : Block) (i : Fin 8) (hi : i.val < nk) :
    (expandKey nk key)[i.val] = bufWord key i := by
  rw [expandKey, expandFrom_before nk _ nk _ (by omega) (by omega) i.val (by omega) hi, getElem_loadKeyWords,
    dif_pos ⟨hi, i.isLt⟩]

/-- Settles O13: the key's words stay, and each later word obeys the recurrence (R86, R92). -/
theorem expandObeysTheRecurrence : Obligations.ExpandObeysTheRecurrence :=
  fun nk key hnk => ⟨getElem_expandKey_of_lt (by omega) key, fun i hi =>
    scheduleExpanded_expandKey (by omega) (by omega) key i (by omega) hi⟩

/-! ## The branches of the recurrence (R93) -/

theorem mem_progression {k a n i : Nat} [NeZero k] :
    i ∈ (List.range n).map (k * · + a) ↔ a ≤ i ∧ (i - a) % k = 0 ∧ (i - a) / k < n := by
  rw [List.mem_map]
  constructor
  · rintro ⟨m, hm, rfl⟩
    simpa [NeZero.pos k] using hm
  · rintro ⟨hai, hmod, hlt⟩
    have hdiv := Nat.div_add_mod (i - a) k
    exact ⟨(i - a) / k, List.mem_range.mpr hlt, by omega⟩

/-- Settles O14: from word `Nk` on, the indices with remainder 0 and those with remainder 4 are the listed
progressions; by 4 no remainder is 4 (R93). -/
theorem expandBranchTable : Obligations.ExpandBranchTable := by
  refine ⟨fun i p hi hi' => ?_, fun i p hi hi' => ?_, fun i p hi hi' => ?_⟩
  · have hrem : i % 4 ≠ 4 := by omega
    rw [scheduleTemp, if_neg hrem]
    exact if_congr (by rw [mem_progression]; omega) rfl rfl
  · exact if_congr (by rw [mem_progression]; omega) rfl
      (if_congr (by rw [mem_progression]; omega) rfl rfl)
  · exact if_congr (by rw [mem_progression]; omega) rfl
      (if_congr (by rw [mem_progression]; omega) rfl rfl)

/-! ## The expansion is a function of the key alone (R94) -/

theorem bufWord_congr {b b' : Block} (j : Fin 8)
    (h : ∀ l : Fin 4, b[4 * j.val + l.val] = b'[4 * j.val + l.val]) : bufWord b j = bufWord b' j := by
  rw [← wordOfBytes_byteOfWord (bufWord b j), ← wordOfBytes_byteOfWord (bufWord b' j)]
  simp only [byteOfWord_bufWord, h]

theorem expandKey_congr {nk : Nat} {key key' : Block} (h : ∀ i : Fin 32, i.val < 4 * nk → key[i] = key'[i]) :
    expandKey nk key = expandKey nk key' := by
  have hload (w : Schedule) : loadKeyWords nk key w = loadKeyWords nk key' w := by
    apply Vector.ext
    intro i hi
    rw [getElem_loadKeyWords, getElem_loadKeyWords]
    split_ifs with hkey
    · exact bufWord_congr _ fun l => h ⟨4 * i + l.val, by omega⟩ (show 4 * i + l.val < 4 * nk by omega)
    · rfl
  rw [expandKey, expandKey, hload]

/-- The schedule a LOADKEY of a legal length leaves (R121). -/
theorem w_of_exec_loadkey {s t : State} {len : Nat} (hlen : keyLenOk len = true)
    (h : exec (.loadkey len) s = .next t) : t.w = expandKey (len / 4) s.key := by
  cases (execLoadkey_accepted s hlen).symm.trans h
  rfl

/-- Settles O15: both leave the expansion of the key bytes they read, and these agree (R94, R121). -/
theorem scheduleDependsOnTheKeyAlone : Obligations.ScheduleDependsOnTheKeyAlone := by
  intro s s' t t' len hlen hkey ht ht'
  rw [w_of_exec_loadkey (keyLenOk_iff.mpr hlen) ht, w_of_exec_loadkey (keyLenOk_iff.mpr hlen) ht']
  exact expandKey_congr fun i hi => hkey i (by omega)

/-! ## The round keys (R95, R96) -/

/-- Settles O50: an entry of a round key is a lane of a word of the schedule, and a key's word has the key's bytes for
its lanes (R95, R96). -/
theorem roundKeyIsAViewOfTheSchedule : Obligations.RoundKeyIsAViewOfTheSchedule := by
  refine ⟨fun w r j c b => ?_, fun nk key hnk j c hc => ?_⟩
  · rw [getElem_roundKey, getLsbD_byteOfWord, decide_eq_true b.isLt, Bool.true_and]
  · rw [getElem_roundKey, ← byteOfWord_bufWord, ← getElem_expandKey_of_lt (by omega) key c hc]
    simp only [Fin.val_zero, Nat.mul_zero, Nat.zero_add]

end Sys2Proof.Machine
end

-- Proofs: the forward round steps (43_round_forward.md)
section
/-!
SUPPORT. `MixColumns` and `InvMixColumns` multiply each column by a constant matrix (R104, R114), and the coefficients
of each row of these matrices sum to 1. `load` and `store` undo each other (R100), and a row's offset is the one R102
lists.
-/

namespace Sys2Proof.Machine

/-! ## A column times a matrix (R104, R114) -/

/-- A row of coefficients times a column. -/
def rowTimesColumn (k a : Fin 4 → Byte) : Byte :=
  gmul (k 0) (a 0) ^^^ gmul (k 1) (a 1) ^^^ gmul (k 2) (a 2) ^^^ gmul (k 3) (a 3)

/-- The matrix of `MixColumns`, row by row (R104). -/
def mixMatrix : Fin 4 → Fin 4 → Byte :=
  ![![0x02, 0x03, 0x01, 0x01], ![0x01, 0x02, 0x03, 0x01], ![0x01, 0x01, 0x02, 0x03], ![0x03, 0x01, 0x01, 0x02]]

/-- The matrix of `InvMixColumns`, row by row (R113, R114). -/
def invMixMatrix : Fin 4 → Fin 4 → Byte :=
  ![![0x0E, 0x0B, 0x0D, 0x09], ![0x09, 0x0E, 0x0B, 0x0D], ![0x0D, 0x09, 0x0E, 0x0B], ![0x0B, 0x0D, 0x09, 0x0E]]

theorem getElem_mixColumns_eq_rowTimesColumn (m : StateMatrix) (r : Fin 4) (c : Fin 8) :
    (mixColumns m)[r][c] = rowTimesColumn (mixMatrix r) fun i => m[i][c] := by
  obtain ⟨h0, h1, h2, h3⟩ := getElem_mixColumns m c
  match r with
  | 0 => simpa [rowTimesColumn, mixMatrix, gmul_one_left] using h0
  | 1 => simpa [rowTimesColumn, mixMatrix, gmul_one_left] using h1
  | 2 => simpa [rowTimesColumn, mixMatrix, gmul_one_left] using h2
  | 3 => simpa [rowTimesColumn, mixMatrix, gmul_one_left] using h3

theorem getElem_invMixColumns_eq_rowTimesColumn (m : StateMatrix) (r : Fin 4) (c : Fin 8) :
    (invMixColumns m)[r][c] = rowTimesColumn (invMixMatrix r) fun i => m[i][c] := by
  obtain ⟨h0, h1, h2, h3⟩ := getElem_invMixColumns m c
  match r with
  | 0 => exact h0
  | 1 => exact h1
  | 2 => exact h2
  | 3 => exact h3

theorem rowTimesColumn_const (k : Fin 4 → Byte) (b : Byte) :
    rowTimesColumn k (fun _ => b) = gmul (k 0 ^^^ k 1 ^^^ k 2 ^^^ k 3) b := by
  simp only [rowTimesColumn, gmul_xor_left]

theorem sum_mixMatrix (r : Fin 4) :
    mixMatrix r 0 ^^^ mixMatrix r 1 ^^^ mixMatrix r 2 ^^^ mixMatrix r 3 = 0x01#8 := by
  decide +revert

theorem sum_invMixMatrix (r : Fin 4) :
    invMixMatrix r 0 ^^^ invMixMatrix r 1 ^^^ invMixMatrix r 2 ^^^ invMixMatrix r 3 = 0x01#8 := by
  decide +revert

/-- Settles O52: an entry is a row of the matrix times its column, and a row sums to 1 (R104, R114). -/
theorem mixColumnsActsOnColumns : Obligations.MixColumnsActsOnColumns := by
  refine ⟨fun m c b hb r => ?_, fun m m' c d h r => ?_⟩
  · rw [getElem_mixColumns_eq_rowTimesColumn, getElem_invMixColumns_eq_rowTimesColumn]
    simp only [hb, rowTimesColumn_const, sum_mixMatrix, sum_invMixMatrix, gmul_one_left, and_self]
  · simp only [getElem_mixColumns_eq_rowTimesColumn, getElem_invMixColumns_eq_rowTimesColumn, h, and_self]

/-! ## Block and state (R100) -/

theorem store_load (b : Block) : store (load b) = b := by
  apply Vector.ext
  intro i hi
  have hload := getElem_load b ⟨i % 4, by omega⟩ ⟨i / 4, by omega⟩
  rw [getElem_store]
  simpa only [Fin.getElem_fin, Nat.div_add_mod] using hload

theorem load_store (m : StateMatrix) : load (store m) = m := by
  apply matrix_ext
  intro r c
  have hr : (4 * c.val + r.val) % 4 = r.val := by omega
  have hc : (4 * c.val + r.val) / 4 = c.val := by omega
  rw [getElem_load, getElem_store]
  simp only [hr, hc, Fin.getElem_fin]

/-- Settles O49: `load` and `store` are inverse, as `i = 4 (i div 4) + i mod 4` (R100). -/
theorem loadAndStoreAreColumnMajor : Obligations.LoadAndStoreAreColumnMajor :=
  ⟨getElem_load, store_load, load_store⟩

/-! ## The offsets of the rows (R102, R103, R112) -/

theorem val_shiftOf (r : Fin 4) : (shiftOf r).val = #v[0, 1, 3, 4][r] := by
  decide +revert

/-- Settles O51: addition in `Fin 8` is modulo 8, and subtraction undoes it (R103, R112). -/
theorem shiftRowsMovesBytes : Obligations.ShiftRowsMovesBytes := by
  intro m r c d
  rw [← val_shiftOf, getElem_shiftRows, getElem_invShiftRows]
  refine ⟨fun hd => ?_, fun hd => ?_⟩
  · have hcol : d + shiftOf r = c := by
      apply Fin.ext
      rw [Fin.val_add]
      omega
    simp only [hcol]
  · have hcol : d = c + shiftOf r := Fin.ext hd
    simp only [hcol, add_sub_cancel_right]

end Sys2Proof.Machine
end

-- Proofs: the inverse rounds (44_round_inverse.md)
section
/-!
SUPPORT. The matrix of `InvMixColumns` times the matrix of `MixColumns` is the identity over GF(2^8), so `InvMixColumns`
undoes `MixColumns` (R113, R115). With the other three laws of R115 each inverse round undoes its round, and `InvCipher`
undoes the rounds of `Cipher` from the last to the first (R118).
-/

namespace Sys2Proof.Machine

/-! ## The product of the two column matrices (R113) -/

/-- A row times a column each of whose entries is a row times `a`: matrix products associate. -/
theorem rowTimesColumn_rowTimesColumn (k a : Fin 4 → Byte) (m : Fin 4 → Fin 4 → Byte) :
    rowTimesColumn k (fun i => rowTimesColumn (m i) a) =
      rowTimesColumn (fun j => rowTimesColumn k fun i => m i j) a := by
  simp only [rowTimesColumn, gmul_xor_left, gmul_xor_right, gmul_assoc]
  ac_rfl

/-- Row `r` of the identity matrix. -/
def unitRow (r j : Fin 4) : Byte := if j = r then 0x01 else 0x00

theorem invMixMatrix_mixMatrix (r j : Fin 4) :
    rowTimesColumn (invMixMatrix r) (fun i => mixMatrix i j) = unitRow r j := by
  decide +revert

theorem rowTimesColumn_unitRow (r : Fin 4) (a : Fin 4 → Byte) : rowTimesColumn (unitRow r) a = a r := by
  match r with
  | 0 | 1 | 2 | 3 => simp [rowTimesColumn, unitRow, gmul_one_left, gmul_zero_left]

/-! ## Each inverse step undoes its step (R115) -/

theorem invSubBytes_subBytes (m : StateMatrix) : invSubBytes (subBytes m) = m :=
  matrix_ext fun r c => by rw [getElem_invSubBytes, getElem_subBytes, invSbox_sbox]

theorem invShiftRows_shiftRows (m : StateMatrix) : invShiftRows (shiftRows m) = m :=
  matrix_ext fun r c => by simp only [getElem_invShiftRows, getElem_shiftRows, sub_add_cancel]

theorem invMixColumns_mixColumns (m : StateMatrix) : invMixColumns (mixColumns m) = m := by
  apply matrix_ext
  intro r c
  simp only [getElem_invMixColumns_eq_rowTimesColumn, getElem_mixColumns_eq_rowTimesColumn,
    rowTimesColumn_rowTimesColumn, invMixMatrix_mixMatrix]
  exact rowTimesColumn_unitRow r fun i => m[i][c]

theorem addRoundKey_addRoundKey (w : Schedule) (r : Fin 15) (m : StateMatrix) :
    addRoundKey w r (addRoundKey w r m) = m :=
  matrix_ext fun j c => by
    rw [getElem_addRoundKey, getElem_addRoundKey, BitVec.xor_assoc, BitVec.xor_self, BitVec.xor_zero]

/-- Settles O53: entry by entry, by the inverse S-box, the inverse offset, the inverse matrix and the sum of a term with
itself (R115). -/
theorem inverseStepsUndoForwardSteps : Obligations.InverseStepsUndoForwardSteps := fun m =>
  ⟨invSubBytes_subBytes m, invShiftRows_shiftRows m, invMixColumns_mixColumns m,
    fun w r => addRoundKey_addRoundKey w r m⟩

/-! ## Which steps commute (R117) -/

theorem invShiftRows_invSubBytes (m : StateMatrix) :
    invShiftRows (invSubBytes m) = invSubBytes (invShiftRows m) :=
  matrix_ext fun r c => by simp only [getElem_invShiftRows, getElem_invSubBytes]

/-- A schedule whose round key 0 has the one nonzero byte 0x01, at row 0, column 0. -/
def oneByteSchedule : Schedule := (Vector.replicate 120 0x00000000#32).set 0 0x01000000#32

/-- The state of 32 zero bytes. -/
def zeroMatrix : StateMatrix := Vector.replicate 4 (Vector.replicate 8 0x00#8)

/-- The zero state becomes the round key, whose one byte `InvMixColumns` multiplies by 0x0E. -/
theorem invMixColumns_addRoundKey_zeroMatrix :
    (invMixColumns (addRoundKey oneByteSchedule 0 zeroMatrix))[(0 : Fin 4)][(0 : Fin 8)] = 0x0E#8 := by
  decide

/-- `InvMixColumns` keeps the zero state, so the round key's byte is added as it is. -/
theorem addRoundKey_invMixColumns_zeroMatrix :
    (addRoundKey oneByteSchedule 0 (invMixColumns zeroMatrix))[(0 : Fin 4)][(0 : Fin 8)] = 0x01#8 := by
  decide

/-- Settles O54: on the zero state and a round key of one byte 0x01 the two orders leave 0x0E and 0x01 at row 0,
column 0; moving bytes and substituting each of them commute (R117). -/
theorem orderOfInverseSteps : Obligations.OrderOfInverseSteps := by
  refine ⟨⟨oneByteSchedule, 0, zeroMatrix, fun h => ?_⟩, invShiftRows_invSubBytes⟩
  have hbyte := invMixColumns_addRoundKey_zeroMatrix
  rw [h, addRoundKey_invMixColumns_zeroMatrix] at hbyte
  exact absurd hbyte (by decide)

/-! ## `InvCipher` undoes `Cipher` (R118) -/

theorem invRound_fullRound (w : Schedule) (r : Fin 15) (m : StateMatrix) : invRound w r (fullRound w r m) = m := by
  rw [invRound, fullRound, addRoundKey_addRoundKey, invMixColumns_mixColumns, invShiftRows_shiftRows,
    invSubBytes_subBytes]

theorem invFirstRound_finalRound (w : Schedule) (m : StateMatrix) : invFirstRound w (finalRound w m) = m := by
  rw [invFirstRound, finalRound, addRoundKey_addRoundKey, invShiftRows_shiftRows, invSubBytes_subBytes]

theorem foldl_reverse_invRound_foldl_fullRound (w : Schedule) (rs : List (Fin 15)) : ∀ m : StateMatrix,
    rs.reverse.foldl (fun m r => invRound w r m) (rs.foldl (fun m r => fullRound w r m) m) = m := by
  induction rs with
  | nil => intro m; rfl
  | cons r rs ih =>
    intro m
    simp only [List.reverse_cons, List.foldl_append, List.foldl_cons, List.foldl_nil, ih, invRound_fullRound]

theorem invCipher_cipher (b : Block) (w : Schedule) : invCipher (cipher b w) w = b := by
  rw [invCipher, cipher, load_store, invFirstRound_finalRound, foldl_reverse_invRound_foldl_fullRound,
    addRoundKey_addRoundKey, store_load]

/-- Settles O21: the rounds are undone from the last to the first, under any schedule (R118). -/
theorem invCipherUndoesCipher : Obligations.InvCipherUndoesCipher := invCipher_cipher

end Sys2Proof.Machine
end

-- Proofs: the commands (45_commands.md)
section
/-!
SUPPORT. What each command writes and leaves (R121, R122, R124 to R129), what an error leaves (R132, R137), and the
sequence of commands that gives a source back (R130). A statement about one command is
its equation in Laws/Exec; a statement about all of them goes by the cases of `CommandEffect`.
-/

namespace Sys2Proof.Machine

theorem exec_next_iff {s t : State} {i : Instr} : exec i s = .next t ↔ CommandEffect s i t := by
  refine ⟨fun h => ?_, CommandEffect.exec_eq⟩
  obtain ⟨t', h', he⟩ := exec_effect i s
  cases h.symm.trans h'
  exact he

theorem encLenOk_iff {len : Nat} : encLenOk len = true ↔ len ≤ 32 :=
  decide_eq_true_iff

theorem decLenOk_iff {len : Nat} : decLenOk len = true ↔ len = 32 :=
  decide_eq_true_iff

/-! ## LOADKEY (R121, R122) -/

/-- Settles O11: an accepted LOADKEY writes `W`, the flags and the sequencer, and nothing else (R121). -/
theorem loadkeyLoadsTheSchedule : Obligations.LoadkeyLoadsTheSchedule := fun s _ hlen =>
  ⟨_, execLoadkey_accepted s (keyLenOk_iff.mpr hlen), rfl, rfl, Nat.mod_eq_of_lt (by omega), rfl, rfl, rfl, rfl, rfl,
    rfl, rfl, rfl, rfl⟩

/-- Of the commands, only a LOADKEY of a legal length loads a key (R31). -/
theorem CommandEffect.kv_eq_false_or {s t : State} {i : Instr} (h : CommandEffect s i t) (hk : s.kv = false) :
    t.kv = false ∨ ∃ len, i = .loadkey len ∧ (len = 16 ∨ len = 24 ∨ len = 32) := by
  cases h with
  | loadkey h => exact .inr ⟨_, rfl, keyLenOk_cases h⟩
  | badKey h => exact .inl rfl
  | enc hk' h => exact .inl hk
  | dec hk' h => exact .inl hk
  | noKey hi hk' => exact .inl hk
  | srcLen hi hk' h => exact .inl hk

/-- No key becomes usable but by a LOADKEY of a legal length (R122). -/
theorem EventEffect.kv_eq_false {s t : State} {e : PortEvent} (h : EventEffect s e t) (hk : s.kv = false)
    (he : ¬ e.LoadsKey) : t.kv = false := by
  cases h with
  | busError hr => simpa using hk
  | read hd hr hv => simpa using hk
  | writeKey j v => simpa using hk
  | writeDin j v => simpa using hk
  | @command v i t hv hc =>
    obtain hkv | ⟨len, rfl, hlen⟩ := hc.kv_eq_false_or hk
    · simpa using hkv
    · exact absurd ⟨v, len, rfl, hv, hlen⟩ he
  | badCommand hv => simpa using hk
  | reset => simp
  | resetDuring v k => simp

/-- Settles O12: a rejected LOADKEY clears the key flags, and until one is accepted `KV` stays 0 and neither ENC nor DEC
gets past its first check (R122, R140). -/
theorem rejectedKeyLeavesNoKey : Obligations.RejectedKeyLeavesNoKey := by
  refine ⟨fun s len h16 h24 h32 => ?_, fun s n hk => ⟨execEnc_noKey s hk, execDec_noKey s hk⟩,
    fun s t e rest hp hk he h => ((step_next_iff hp).mp h).kv_eq_false hk he, by decide⟩
  have hlen : ¬ keyLenOk len = true := by simp [keyLenOk_iff, h16, h24, h32]
  exact ⟨_, execLoadkey_rejected s (Bool.eq_false_iff.mpr hlen), rfl, by simp [statusWord]⟩

/-! ## ENC and DEC (R124 to R129) -/

/-- Settles O16: an accepted ENC writes `DOUT`, `STATE`, `ERR`, the sequencer and the count of free values, and nothing
else; an overlong source is rejected (R124 to R126). -/
theorem encWritesTheCipher : Obligations.EncWritesTheCipher := by
  refine ⟨fun s len hk hlen => ?_, fun s len hk hlen => ?_⟩
  · exact ⟨_, execEnc_accepted s hk (encLenOk_iff.mpr hlen), rfl, rfl, rfl, rfl, rfl, rfl, rfl, rfl, rfl, rfl⟩
  · exact execEnc_srcLen s hk (Bool.eq_false_iff.mpr (mt encLenOk_iff.mp (Nat.not_le_of_lt hlen)))

/-- Settles O17: an accepted DEC writes the fields that an accepted ENC writes; any length but 32 is
rejected (R128, R129). -/
theorem decWritesTheInverseCipher : Obligations.DecWritesTheInverseCipher := by
  refine ⟨fun s hk => ?_, fun s len hk hlen => ?_⟩
  · exact ⟨_, execDec_accepted s hk rfl, rfl, rfl, rfl, rfl, rfl, rfl, rfl, rfl, rfl, rfl⟩
  · exact execDec_srcLen s hk (Bool.eq_false_iff.mpr (mt decLenOk_iff.mp hlen))

/-- Bytes that are zero anyway may count as source or not (R127). -/
theorem zeroExtend_eq_of_trailing_zeros {m n : Nat} {b b' : Block} (hmn : m ≤ n)
    (heq : ∀ i : Fin 32, i.val < m → b[i] = b'[i]) (hzero : ∀ i : Fin 32, m ≤ i.val → i.val < n → b'[i] = 0x00#8) :
    zeroExtend m b = zeroExtend n b' := by
  have hbyte (i : Fin 32) : (zeroExtend m b)[i] = (zeroExtend n b')[i] := by
    rw [getElem_zeroExtend, getElem_zeroExtend]
    by_cases him : i.val < m
    · rw [if_pos him, if_pos (Nat.lt_of_lt_of_le him hmn), heq i him]
    · rw [if_neg him]
      split_ifs with hin
      · exact (hzero i (Nat.le_of_not_lt him) hin).symm
      · rfl
  exact Vector.ext fun i hi => hbyte ⟨i, hi⟩

/-- What an ENC that is accepted leaves in `DOUT` (R124). -/
theorem dout_of_exec_enc {s t : State} {len : Nat} (hk : s.kv = true) (hlen : len ≤ 32)
    (h : exec (.enc len) s = .next t) : t.dout = cipher (zeroExtend len s.din) s.w := by
  cases (execEnc_accepted s hk (encLenOk_iff.mpr hlen)).symm.trans h
  rfl

/-- Settles O20: both leave `Cipher` of a zero-extended source, and the two sources extend to the same block (R125,
R127). -/
theorem encDependsOnTheSourceAlone : Obligations.EncDependsOnTheSourceAlone := by
  intro s s' t t' m n hk hk' hw hmn hn heq hzero ht ht'
  rw [dout_of_exec_enc hk (hmn.trans hn) ht, dout_of_exec_enc hk' hn ht', hw,
    zeroExtend_eq_of_trailing_zeros hmn heq hzero]

/-! ## Errors (R132, R137) -/

/-- Settles O19: of the effects of a command, those that leave an error write `ERR` alone, but for a rejected LOADKEY,
which clears `KV` and `NK` too (R132, R137). -/
theorem failedCommandChangesOnlyStatus : Obligations.FailedCommandChangesOnlyStatus := by
  intro i s t h herr
  cases exec_next_iff.mp h with
  | loadkey h => exact absurd rfl herr
  | badKey h => exact ⟨rfl, fun hi => absurd rfl (hi _)⟩
  | enc hk h => exact absurd rfl herr
  | dec hk h => exact absurd rfl herr
  | noKey hi hk => exact ⟨rfl, fun _ => rfl⟩
  | srcLen hi hk h => exact ⟨rfl, fun _ => rfl⟩

/-! ## The round trip (R130) -/

/-- Settles O22: DEC reads the block that ENC wrote, under the schedule that ENC used, and `InvCipher` undoes `Cipher`
(R118, R130). -/
theorem hostRoundTrip : Obligations.HostRoundTrip := by
  intro s len n hlen hn
  refine ⟨_, _, _, execLoadkey_accepted s (keyLenOk_iff.mpr hlen), execEnc_accepted _ rfl (encLenOk_iff.mpr hn),
    (congrArg (exec (.dec 32)) (copyDoutToDin_eq _)).trans (execDec_accepted _ rfl rfl), rfl, fun i => ?_⟩
  rw [invCipher_cipher, getElem_zeroExtend]

end Sys2Proof.Machine
end

-- Proofs: errors and exceptions (60_exceptions.md)
section
/-!
SUPPORT. Every step answers (R137, R138, R150). The code a command leaves in `ERR` is a function of the command and of
`KV` before it, with the checks in the order of R140; so every step leaves one of the codes of R136.
-/

namespace Sys2Proof.Machine

/-! ## Every step answers (R137, R138, R150) -/

/-- Settles O9: an empty port is the first case of a step (R150). -/
theorem idleBlockHoldsItsState : Obligations.IdleBlockHoldsItsState := fun _ => step_idle

/-- Settles O8: an idle block holds its state, and every event has an effect (R137, R138). -/
theorem everyStepCompletes : Obligations.EveryStepCompletes := by
  intro s
  rcases hp : s.port with _ | ⟨e, rest⟩
  · exact ⟨s, step_idle hp⟩
  · obtain ⟨t, -, he⟩ := performEvent_effect e { s with port := rest }
    exact ⟨t, (step_next_iff hp).mpr he⟩

/-! ## The code of one command (R140) -/

/-- The code that a command leaves in `ERR`, where `kv` is `KV` before it: the first check of R140 that fails, else 0. -/
def commandErr (kv : Bool) : Instr → BitVec 4
  | .loadkey len => if len = 16 ∨ len = 24 ∨ len = 32 then 0#4 else 1#4
  | .enc len => if kv = false then 3#4 else if len > 32 then 2#4 else 0#4
  | .dec len => if kv = false then 3#4 else if len ≠ 32 then 2#4 else 0#4

/-- Without a key, ENC and DEC never reach the check of the length (R140). -/
theorem commandErr_noKey {i : Instr} (hi : ∀ len, i ≠ .loadkey len) : commandErr false i = 3#4 := by
  cases i with
  | loadkey len => exact absurd rfl (hi len)
  | enc len => rfl
  | dec len => rfl

/-- With a key, an ENC or a DEC that its checks reject has a bad length (R126, R128). -/
theorem commandErr_srcLen {s : State} {i : Instr} (hi : ∀ len, i ≠ .loadkey len) (hk : s.kv = true)
    (h : ¬ accepts i s = true) : commandErr true i = 2#4 := by
  cases i with
  | loadkey len => exact absurd rfl (hi len)
  | enc len =>
    have hlen : len > 32 := Nat.lt_of_not_le fun hle => h (accepts_enc_iff.mpr ⟨hk, hle⟩)
    exact if_pos hlen
  | dec len =>
    have hlen : len ≠ 32 := fun heq => h (accepts_dec_iff.mpr ⟨hk, heq⟩)
    exact if_pos hlen

theorem CommandEffect.err_eq {s t : State} {i : Instr} (h : CommandEffect s i t) : t.err = commandErr s.kv i := by
  cases h with
  | loadkey h => exact (if_pos (keyLenOk_iff.mp h)).symm
  | badKey h => exact (if_neg (mt keyLenOk_iff.mpr (Bool.eq_false_iff.mp h))).symm
  | enc hk h =>
    rw [hk]
    exact (if_neg (Nat.not_lt_of_le (encLenOk_iff.mp h))).symm
  | dec hk h =>
    rw [hk]
    exact (if_neg (not_not_intro (decLenOk_iff.mp h))).symm
  | noKey hi hk =>
    rw [hk]
    exact (commandErr_noKey hi).symm
  | srcLen hi hk h =>
    rw [hk]
    exact (commandErr_srcLen hi hk (Bool.eq_false_iff.mp h)).symm

/-- Settles O18: an illegal word leaves code 4, and a command's word leaves the code of that command (R131, R140). -/
theorem oneErrorInPriorityOrder : Obligations.OneErrorInPriorityOrder := by
  refine ⟨fun s v rest hp => ?_, by decide, .rsv1, by decide⟩
  rcases hv : decode v with b | i
  · exact ⟨_, (step_next_iff hp).mpr (.badCommand hv), rfl⟩
  · obtain ⟨t, -, ht⟩ := exec_effect i { s with port := rest }
    refine ⟨_, (step_next_iff hp).mpr (.command hv ht), ht.err_eq.trans ?_⟩
    cases i with
    | loadkey len => rfl
    | enc len => rfl
    | dec len => rfl

/-! ## The codes of `ERR` (R136) -/

/-- Whatever `ERR` was, a command leaves a code of R136 in it (R120). -/
theorem CommandEffect.errOk {s t : State} {i : Instr} (h : CommandEffect s i t) : t.ErrOk := by
  cases h with
  | loadkey h => exact Nat.zero_le 4
  | badKey h => show 1 ≤ 4; decide
  | enc hk h => exact Nat.zero_le 4
  | dec hk h => exact Nat.zero_le 4
  | noKey hi hk => show 3 ≤ 4; decide
  | srcLen hi hk h => show 2 ≤ 4; decide

/-- An event keeps `ERR`, runs a command, or leaves the code of an illegal word or of a reset (R34, R136). -/
theorem EventEffect.errOk {s t : State} {e : PortEvent} (h : EventEffect s e t) (hs : s.ErrOk) : t.ErrOk := by
  cases h with
  | busError hr => simpa [State.ErrOk] using hs
  | read hd hr hv => simpa [State.ErrOk] using hs
  | writeKey j v => simpa [State.ErrOk] using hs
  | writeDin j v => simpa [State.ErrOk] using hs
  | command hv h => simpa [State.ErrOk] using h.errOk
  | badCommand hv => simp [State.ErrOk]
  | reset => simp [State.ErrOk]
  | resetDuring v k => simp [State.ErrOk]

/-- Settles O25: every event leaves a legal code, or the code that was there (R34, R136). -/
theorem errStaysALegalCode : Obligations.ErrStaysALegalCode := fun _ _ =>
  step_preserves (P := State.ErrOk) (fun _ _ hs => hs) fun _ _ _ => EventEffect.errOk

end Sys2Proof.Machine
end

-- Proofs: reset and latency (70_reset_and_hazards.md)
section
/-!
SUPPORT. A reset that aborts a command has the effect of any reset (R151, R152). Latency looks at a command's word and
at whether the command is accepted, and `accepts` reads `KV` alone (R157, R158).
-/

namespace Sys2Proof.Machine

/-! ## A reset in the middle of a command (R152) -/

theorem State.Alike.refl (s : State) : s.Alike s :=
  ⟨rfl, rfl, rfl, rfl, rfl, rfl, fun _ => rfl, rfl, rfl, rfl⟩

/-- Settles O40: both resets have the effect `resetBlock`, which answers nothing (R151, R152). -/
theorem resetAbortsTheCommand : Obligations.ResetAbortsTheCommand := by
  intro s t t' v k rest hp h h'
  have ht : t = resetBlock { s with port := rest } := ((step_next_iff hp).mp h).unique (.resetDuring v k)
  have ht' : t' = resetBlock { s with port := rest } := ((step_next_iff rfl).mp h').unique .reset
  subst ht ht'
  exact ⟨.refl _, resetBlock_responses _⟩

/-! ## Latency (R157, R158) -/

/-- Of the state, the checks of a command read `KV` alone (R121, R124, R128). -/
theorem accepts_congr {s t : State} (i : Instr) (hkv : s.kv = t.kv) : accepts i s = accepts i t := by
  cases i <;> simp only [accepts, hkv]

theorem commandLatency_congr {s t : State} (v : Word) (hkv : s.kv = t.kv) :
    commandLatency v s = commandLatency v t := by
  rcases hv : decode v with b | i
  · simp only [commandLatency, hv]
  · simp only [commandLatency, hv, accepts_congr i hkv]

theorem one_le_instrLatency (i : Instr) : 1 ≤ instrLatency i := by
  cases i with
  | loadkey len => exact Nat.le_add_left 1 _
  | enc len => exact Nat.le_add_left 1 _
  | dec len => exact Nat.le_add_left 1 _

theorem one_le_commandLatency (v : Word) (s : State) : 1 ≤ commandLatency v s := by
  have herr : 1 ≤ Config.latErr := Nat.le_add_left 1 _
  rcases hv : decode v with b | i
  · simpa only [commandLatency, hv] using herr
  · simp only [commandLatency, hv]
    split
    · exact one_le_instrLatency i
    · exact herr

/-- Without a key, ENC and DEC are not accepted (R124, R128). -/
theorem not_accepts_of_noKey {s : State} {i : Instr} (hi : ∀ len, i ≠ .loadkey len) (hk : s.kv = false) :
    ¬ accepts i s = true := by
  cases i with
  | loadkey len => exact absurd rfl (hi len)
  | enc len => simp [accepts_enc_iff, hk]
  | dec len => simp [accepts_dec_iff, hk]

/-- The commands that leave `ERR = OK` are those that are accepted (R132). -/
theorem CommandEffect.accepts_iff {s t : State} {i : Instr} (h : CommandEffect s i t) :
    accepts i s = true ↔ t.err = 0#4 := by
  cases h with
  | loadkey h => exact iff_of_true h rfl
  | badKey h => exact iff_of_false (Bool.eq_false_iff.mp h) (by simp)
  | enc hk h => exact iff_of_true (accepts_enc_iff.mpr ⟨hk, encLenOk_iff.mp h⟩) rfl
  | dec hk h => exact iff_of_true (accepts_dec_iff.mpr ⟨hk, decLenOk_iff.mp h⟩) rfl
  | noKey hi hk => exact iff_of_false (not_accepts_of_noKey hi hk) (by simp)
  | srcLen hi hk h => exact iff_of_false (Bool.eq_false_iff.mp h) (by simp)

/-- Settles O57: latency is a function of the word and of `accepts`, which reads `KV` alone and foretells `ERR`
(R157, R158). -/
theorem latencyIgnoresKeyAndData : Obligations.LatencyIgnoresKeyAndData :=
  ⟨fun v _ _ => commandLatency_congr v, one_le_commandLatency, fun _ _ _ h => (exec_next_iff.mp h).accepts_iff⟩

end Sys2Proof.Machine
end
